-- ==== Sys2Proof/Word.lean ====
section
/-! DEFINITION. The word types of the spec (00_scope.md R6, R8). -/

namespace Sys2Proof

/-- A byte of system memory, and a residue element (`YW` = 8). -/
abbrev Byte := BitVec 8

/-- A 32-bit pattern: an accumulator element (`XW`), a reciprocal constant (`RW`), a command word, `STATUS`. -/
abbrev Word := BitVec 32

/-- A 64-bit pattern: a byte address (`AW`) or an element count (`CW`). -/
abbrev DWord := BitVec 64

end Sys2Proof
end

