-- ==== Sys2Proof/Syntax.lean ====
section
/-! DEFINITION. The commands of CORE: one constructor per row of the opcode table (30_encoding.md R83). -/

namespace Sys2Proof

/-- A decoded command word. The other operands are implicit: they come from the operand registers (R80, R88). -/
inductive Instr where
  /-- `CONVERT idx`: `idx` is the source's `modulusIndex` (R82, R128). -/
  | convert (idx : Nat)
  /-- `CONVERT_BATCHED m`: `m` is the source's `numModuli` (R82, R145). -/
  | convertBatched (m : Nat)
  deriving DecidableEq, Repr

end Sys2Proof
end

