-- ==== Sys2Proof/WellFormed.lean ====
section
/-! DEFINITION. Which commands a command word can hold (30_encoding.md R82, R91). -/

namespace Sys2Proof

/-- The index operand fits the 16-bit field `IDX`: "`<idx>` and `<m>` must lie in 0 .. 65535" (R91). -/
def Instr.wf : Instr → Bool
  | .convert idx => decide (idx < 65536)
  | .convertBatched m => decide (m < 65536)

end Sys2Proof
end

