-- ==== Sys2Proof/Decode.lean ====
section
/-! DEFINITION. Command words: fields, decoding and encoding (30_encoding.md R80 to R90). -/

namespace Sys2Proof

/-- Field `OPC` = w[31:24] (R81). -/
def opcField (w : Word) : BitVec 8 := w.extractLsb' 24 8

/-- Field `RSV` = w[23:16] (R81). -/
def rsvField (w : Word) : BitVec 8 := w.extractLsb' 16 8

/-- Field `IDX` = w[15:0] (R81). -/
def idxField (w : Word) : BitVec 16 := w.extractLsb' 0 16

/-- Why a word is no command (R84, R85). -/
inductive DecodeError where
  /-- `OPC` is neither 0x01 nor 0x02 (R84). -/
  | reservedOpcode
  /-- `OPC` is a command's and `RSV` is not 0 (R85). -/
  | reservedField
  deriving DecidableEq, Repr

/-- The decoding procedure of R90, total on words; the index is taken unsigned and unscaled (R82). -/
def decode (w : Word) : Except DecodeError Instr :=
  if opcField w ≠ 0x01#8 ∧ opcField w ≠ 0x02#8 then .error .reservedOpcode
  else if rsvField w ≠ 0#8 then .error .reservedField
  else if opcField w = 0x01#8 then .ok (.convert (idxField w).toNat)
  else .ok (.convertBatched (idxField w).toNat)

/-- The word of a command: `0x01000000 + idx` and `0x02000000 + m` (R83, R91). -/
def encode : Instr → Word
  | .convert idx => BitVec.ofNat 32 (0x01000000 + idx % 65536)
  | .convertBatched m => BitVec.ofNat 32 (0x02000000 + m % 65536)

/-- The pattern of a command's row of the opcode table under the mask 0xFFFF0000 (R83). -/
def matchWord : Instr → Word
  | .convert _ => 0x01000000#32
  | .convertBatched _ => 0x02000000#32

/-- What the decoder reads from an instruction whose low `nbits` bits are those of `w` and whose other bits are 0.
A command word is one 32-bit word and has no byte order (R80, R87). -/
def decodeTableWord (nbits w : Nat) : Option Instr :=
  match decode (BitVec.ofNat 32 (w % 2 ^ nbits)) with
  | .ok i => some i
  | .error _ => none

end Sys2Proof
end

