-- ==== Sys2Proof/Config.lean ====
section
/-! DEFINITION. What an implementation fixes (00_scope.md R6) and the free values of the spec (R10 `any_N`).

The OPEN parameters of R6 are the structure `Platform`. A state holds one (log 1), so that a statement about every
state holds for every table, every block size, every queue depth and every accessible set. -/

namespace Sys2Proof.Machine

/-- A modulus descriptor `(p, invp)` (10_state.md R30): stored modulus and reciprocal constant. -/
structure Descriptor where
  p : BitVec 8
  invp : Word
  deriving DecidableEq, Repr, Inhabited

/-- One index of the table with its two physical copies (10_state.md R33). -/
structure TableSlot where
  host : Descriptor
  device : Descriptor
  deriving DecidableEq, Repr, Inhabited

/-- A range of byte addresses `[base, base + size)`. -/
structure Region where
  base : Nat
  size : Nat
  deriving DecidableEq, Repr, Inhabited

/-- The OPEN parameters of R6. The numbers that the spec bounds below by 1 are held as what they exceed 1 by. -/
structure Platform where
  /-- `MT[0]`: never read (10_state.md R31). -/
  slot0 : TableSlot
  /-- `MT[1 .. NMOD-1]` (10_state.md R31). -/
  genuine : List TableSlot
  /-- `LANES_PER_BLOCK` less 1 (R6: `B ≥ 1`). -/
  moreLanes : Nat
  /-- `NQ` less 1 (R6: `NQ ≥ 1`). -/
  moreSlots : Nat
  /-- The ranges whose union the platform lets CORE reach (20_memory.md R55). -/
  regions : List Region
  /-- `REG_BASE`: where the platform maps the register block, if it does (70_reset_and_hazards.md R217). -/
  regBase : Option Nat
  deriving DecidableEq, Repr, Inhabited

end Sys2Proof.Machine

namespace Sys2Proof

/-- The platform a machine is built with: an open parameter, of which nothing is known (R6; log 1). -/
opaque Config.platform : Machine.Platform

/-- `any_8` (R10): a free byte, unconstrained, one for each draw (log 4). -/
opaque Config.any8 : Nat → BitVec 8

/-- `any_64` (R10): a free 64-bit value, unconstrained, one for each draw (log 4). -/
opaque Config.any64 : Nat → BitVec 64

/-- The free choice among the enabled steps (43_control.md R170), one for each draw (log 5). -/
opaque Config.pick : Nat → Nat

/-- How many free choices pass before a due step is taken (43_control.md R168, weak fairness): a free number, finite and
without a bound (log 28). -/
opaque Config.patience : Nat → Nat

end Sys2Proof
end

