-- ==== Sys2Proof/Machine/State.lean ====
section
/-! DEFINITION. The state of the machine and its value after reset (10_state.md R20, R36, R40; 70_reset_and_hazards.md
R200, R201), the moves of its agents (00_scope.md R11, 43_control.md R170) and the reasons a step can stop
(60_exceptions.md R175, R178). -/

namespace Sys2Proof.Machine

/-- System memory `M` (20_memory.md R50): the bytes that differ from what an unlisted address reads as. -/
abbrev Memory := List Host.Cell

/-- `op` of a command record (10_state.md R36). -/
inductive Op where
  | convert
  | convertBatched
  deriving DecidableEq, Repr

/-- A lane coordinate: element group `g`, modulus index `k`; `k` = 0 in a CONVERT (20_memory.md R62). -/
structure Coord where
  g : Nat
  k : Nat
  deriving DecidableEq, Repr

/-- A command record (10_state.md R36). -/
structure Command where
  op : Op
  /-- Modulus index of a CONVERT, `numModuli` of a CONVERT_BATCHED. -/
  idx : Nat
  /-- The latched `COUNT`. -/
  n : DWord
  /-- The latched `ACC_BASE`. -/
  ab : DWord
  /-- The latched `RES_BASE`. -/
  rb : DWord
  /-- `PEND`: the lanes that have not stepped (10_state.md R25), in no meaningful order. -/
  pend : List Coord
  deriving DecidableEq, Repr

/-- An action of the host. Register accesses are at an offset of the register block, with a width in bytes (10_state.md
R29); only the low bits of `value` that the width covers are written. -/
inductive HostAction where
  /-- A write to the register block (43_control.md R160, R163). -/
  | regWrite (offset width : Nat) (value : DWord)
  /-- A read of the register block (43_control.md R161, R164). -/
  | regRead (offset width : Nat)
  /-- `JOIN` (43_control.md R165). -/
  | join
  /-- A write to `M` (20_memory.md R70), lowest address first. -/
  | memWrite (addr : DWord) (bytes : List Byte)
  /-- A read of `len` bytes of `M` (20_memory.md R70). -/
  | memRead (addr : DWord) (len : Nat)
  deriving DecidableEq, Repr

/-- What the host's latest read returned (43_control.md R161, R164; 20_memory.md R70). -/
inductive HostValue where
  | nothing
  | dword (v : DWord)
  | word (v : Word)
  | bytes (bs : List Byte)
  deriving DecidableEq, Repr

/-- One of the two physical copies of the table (10_state.md R33). -/
inductive TableCopy where
  | host
  | device
  deriving DecidableEq, Repr

/-- Which agent moves (00_scope.md R11, 43_control.md R170). Records of `Q` are named by their place, oldest 0. -/
inductive Move where
  /-- The host's next action. -/
  | host
  /-- The step of one pending lane (41_single_converter.md R126, 42_batched_converter.md R143). -/
  | lane (pos : Nat) (co : Coord)
  /-- Removal of a finished record (43_control.md R167). -/
  | retire (pos : Nat)
  /-- RESET (70_reset_and_hazards.md R200). -/
  | reset
  /-- The platform rewrites one entry of one copy of the table (10_state.md R34, 70_reset_and_hazards.md R212). -/
  | loadEntry (copy : TableCopy) (i : Nat) (d : Descriptor)
  deriving DecidableEq, Repr

/-- The model's own: whose step is due, and how many free choices may still pass before it is taken (43_control.md R168;
log 28). -/
structure Turn where
  /-- The host's next action is due; else the first enabled step of CORE is. -/
  hostDue : Bool
  patience : Nat
  deriving DecidableEq, Repr

/-- The machine. The first five fields are the spec's tuple `(REG, Q, M)` (10_state.md R20), `plat` is its
configuration (R39; log 1), the others are the host's side and the model's own. -/
structure State where
  /-- `ACC_BASE`; `none` is the spec's "unwritten" (10_state.md R21, R40). -/
  accBase : Option DWord
  /-- `RES_BASE` (10_state.md R21, R40). -/
  resBase : Option DWord
  /-- `COUNT` (10_state.md R21, R40). -/
  count : Option DWord
  /-- `Q`: the commands in flight, oldest first (10_state.md R35). -/
  queue : List Command
  /-- `M` (20_memory.md R50). -/
  mem : Memory
  /-- The open parameters, the table among them (00_scope.md R6, 10_state.md R39; log 1). -/
  plat : Platform
  /-- Records that left `Q`, retired or discarded by RESET, since the last `STATUS` read that gave `BUSY` = 0: the host
  does not own their buffers yet (20_memory.md R70; log 8). -/
  unjoined : List Command
  /-- The word of a `CMD` write that has not completed: the host holds (43_control.md R163, R166; log 7). -/
  heldWrite : Option Word
  /-- The host's remaining actions, in its program order (10_state.md R24; log 6). -/
  program : List HostAction
  /-- What the host's latest read returned (log 17). -/
  lastRead : HostValue
  /-- The model's own: the moves that come next; where it is empty the choice is free (log 5). -/
  agenda : List Move
  /-- The model's own: how many free values have been drawn (log 4). -/
  draws : Nat
  /-- The model's own: what makes the free choices weakly fair (43_control.md R168; log 28). -/
  turn : Turn
  deriving DecidableEq, Repr

/-- CORE raises nothing (60_exceptions.md R175). The one constructor is the model's own. -/
inductive Fault where
  /-- Raised by a host access to `M` that passes address 2^64 (20_memory.md R50: no such address), and by a lane whose
  load or store would, which no admitted launch creates (20_memory.md R56). Safe: the machine stops (log 13). -/
  | noSuchAddress
  deriving DecidableEq, Repr

/-- `refuse(reason)`: the step has no successor (60_exceptions.md R178, closed list). Each is safe: the spec says
nothing of a run that contains it. -/
inductive Refusal where
  /-- Raised by an arm of `exec` whose instruction has no meaning yet. Safe. No arm raises it now. -/
  | notModelled (mnemonic : String)
  /-- Raised by a `CMD` write with `OPC` not 0x01 or 0x02 (30_encoding.md R84). Safe. -/
  | reservedOpcode
  /-- Raised by a `CMD` write with `RSV` not 0 (30_encoding.md R85). Safe. -/
  | reservedField
  /-- Raised by a launch before all three operand registers were written (30_encoding.md R88). Safe. -/
  | operandUnwritten
  /-- Raised by a launch with `COUNT` not a multiple of 16 (43_control.md R162 check 4). Safe. -/
  | countGranularity
  /-- Raised by a CONVERT with `IDX ≥ NMOD` (43_control.md R162 check 5). Safe. -/
  | indexOutOfRange
  /-- Raised by a CONVERT_BATCHED with `IDX > NMOD` (43_control.md R162 check 6). Safe. -/
  | numModuliOutOfRange
  /-- Raised by a launch with a misaligned base (20_memory.md R57). Safe. -/
  | misalignedBase
  /-- Raised by a launch one of whose extents would pass 2^64 (20_memory.md R56). Safe. -/
  | extentOverflow
  /-- Raised by a launch with an extent byte that CORE cannot reach (20_memory.md R55). Safe. -/
  | extentNotAccessible
  /-- Raised by a launch whose own extents meet (20_memory.md R61). Safe. -/
  | inPlace
  /-- Raised by a launch whose extents meet those of a command in flight (20_memory.md R64). Safe. -/
  | overlapInFlight
  /-- Raised by a launch while the two copies of the table differ (10_state.md R33), at index 0 too (log 27). Safe. -/
  | tableInconsistent
  /-- Raised by a table load while a command is in flight (10_state.md R34). Safe. -/
  | tableChangedInFlight
  /-- Raised by a host write to a byte of an extent it does not own (20_memory.md R70). Safe. -/
  | hostRace
  /-- Raised by a register access of another offset or width (10_state.md R29). Safe. -/
  | badRegisterAccess
  deriving DecidableEq, Repr

/-- `NMOD ≤ 65535` (00_scope.md R6): what of a platform's table a machine is built with (log 10). -/
def boundedPlatform (p : Platform) : Platform := { p with genuine := p.genuine.take 65534 }

/-- The machine right after reset (10_state.md R40, 70_reset_and_hazards.md R200, R201): operand registers unwritten, `Q`
empty; `M` and the platform are not CORE's (log 1, log 2), and the host has nothing to do (log 6). -/
def State.reset : State where
  accBase := none
  resBase := none
  count := none
  queue := []
  mem := []
  plat := boundedPlatform Config.platform
  unjoined := []
  heldWrite := none
  program := []
  lastRead := .nothing
  agenda := []
  draws := 0
  turn := ⟨false, 0⟩

end Sys2Proof.Machine
end

