-- ==== Sys2Proof/Machine/Ops.lean ====
section
/-! DEFINITION. The named operations over memory, the platform and the queue. CORE has no exception entry and no return
from one (60_exceptions.md R175, R181, R182), so no such operation stands here. -/

namespace Sys2Proof.Machine

/-- What a step answers. -/
abbrev Result := Host.Outcome State Fault Refusal

/-! ### Memory (20_memory.md R50, R51) -/

/-- The number of byte addresses, 2^`AW` (R50). -/
def addrSpace : Nat := 2 ^ 64

/-- What an address that no entry lists reads as (log 2). -/
def Memory.unlisted : Byte := 0#8

/-- The byte at an address. -/
def Memory.read : Memory → Nat → Byte
  | [], _ => Memory.unlisted
  | c :: m, a => if c.1 = a then c.2 else Memory.read m a

/-- The memory without an entry for `a`. -/
def Memory.erase (m : Memory) (a : Nat) : Memory := m.filter (fun c => c.1 != a)

/-- Adds an entry at its place in the order. -/
def Memory.insert : Memory → Nat → Byte → Memory
  | [], a, b => [(a, b)]
  | c :: m, a, b => if a < c.1 then (a, b) :: c :: m else c :: Memory.insert m a b

/-- Stores one byte; storing what an unlisted address reads as removes the entry. -/
def Memory.write (m : Memory) (a : Nat) (b : Byte) : Memory :=
  if b = Memory.unlisted then m.erase a else (m.erase a).insert a b

/-- `MemWrite` (00_scope.md R10): stores a string of bytes, lowest address first. -/
def Memory.storeBytes : Memory → Nat → List Byte → Memory
  | m, _, [] => m
  | m, a, b :: bs => Memory.storeBytes (m.write a b) (a + 1) bs

/-- `AccRead` (R51): the 32-bit element at `a`, little-endian (log 16). -/
def Memory.accRead (m : Memory) (a : Nat) : Word :=
  BitVec.ofNat 32 ((m.read a).toNat + 2 ^ 8 * (m.read (a + 1)).toNat + 2 ^ 16 * (m.read (a + 2)).toNat
    + 2 ^ 24 * (m.read (a + 3)).toNat)

/-- The canonical form: addresses strictly rise, no entry equals what an unlisted address reads as. -/
def Memory.wf : Memory → Bool
  | [] => true
  | c :: m => c.2 != Memory.unlisted && m.all (fun d => decide (c.1 < d.1)) && Memory.wf m

/-- Every listed address exists (R50). -/
def Memory.inSpace (m : Memory) : Bool := m.all (fun c => decide (c.1 < addrSpace))

/-! ### Address ranges (20_memory.md R56) -/

/-- A range of byte addresses `[lo, hi)`. -/
structure Extent where
  lo : Nat
  hi : Nat
  deriving DecidableEq, Repr

/-- The address lies in the range. -/
abbrev Extent.has (e : Extent) (a : Nat) : Prop := e.lo ≤ a ∧ a < e.hi

/-- Two ranges share a byte. -/
def Extent.meets (e f : Extent) : Bool := decide (max e.lo f.lo < min e.hi f.hi)

/-- What of a gap a region leaves uncovered: the parts below and above it. -/
def Region.cut (r : Region) (gap : Extent) : List Extent :=
  [⟨gap.lo, min gap.hi r.base⟩, ⟨max gap.lo (r.base + r.size), gap.hi⟩].filter (fun e => decide (e.lo < e.hi))

/-- What of the gaps no region covers. -/
def uncovered (regions : List Region) (gaps : List Extent) : List Extent :=
  regions.foldl (fun gs r => gs.flatMap r.cut) gaps

/-! ### The platform (00_scope.md R6, 10_state.md R30 to R34) -/

/-- `NMOD`, the number of table entries (R6). -/
def Platform.nmod (p : Platform) : Nat := p.genuine.length + 1

/-- `LANES_PER_BLOCK` (R6). -/
def Platform.lanesPerBlock (p : Platform) : Nat := p.moreLanes + 1

/-- `NQ` (R6). -/
def Platform.nq (p : Platform) : Nat := p.moreSlots + 1

/-- `LOOKUP(i)` (10_state.md R30) for 1 ≤ i < `NMOD`, from the device-side copy (log 9); there is none at another index
(log 23). -/
def Platform.lookup (p : Platform) : Nat → Option Descriptor
  | 0 => none
  | i + 1 => p.genuine[i]?.map TableSlot.device

/-- The two physical copies of the table are equal (10_state.md R33). DESIGN CHOICE: the whole table is compared, the
entry at index 0 too, which no lane reads (10_state.md R31; log 27). -/
def Platform.tableConsistent (p : Platform) : Bool :=
  (p.slot0 :: p.genuine).all (fun s => decide (s.host = s.device))

/-- Rewrites one copy of a slot. -/
def TableSlot.set (s : TableSlot) (d : Descriptor) : TableCopy → TableSlot
  | .host => { s with host := d }
  | .device => { s with device := d }

/-- Rewrites entry `i` of one copy of the table; there is no entry at or above `NMOD` (10_state.md R34; log 9). -/
def Platform.setEntry (p : Platform) (copy : TableCopy) (d : Descriptor) : Nat → Platform
  | 0 => { p with slot0 := p.slot0.set d copy }
  | i + 1 => { p with genuine := p.genuine.modify i (fun s => s.set d copy) }

/-- The register window that the platform maps, if it does: 0x20 bytes at `REG_BASE` (70_reset_and_hazards.md R217). -/
def Platform.window (p : Platform) : Extent :=
  match p.regBase with
  | some b => ⟨b, b + 0x20⟩
  | none => ⟨0, 0⟩

/-- The byte is in `Accessible` (20_memory.md R55): in some region, and not in the mapped register window (R217; log 20). -/
def Platform.AccessibleByte (p : Platform) (a : Nat) : Prop :=
  (∃ r ∈ p.regions, r.base ≤ a ∧ a < r.base + r.size) ∧ ¬ p.window.has a

/-- Every byte of the range is in `Accessible` (20_memory.md R55). -/
def Platform.accessible (p : Platform) (e : Extent) : Bool :=
  (uncovered p.regions [e]).all (fun g => decide (g.hi ≤ g.lo)) && !(p.window.meets e)

/-! ### The queue (10_state.md R28, R35; 43_control.md R163 to R167) -/

/-- A command is in flight: `STATUS` bit 0 (R28). -/
def State.busy (s : State) : Bool := !s.queue.isEmpty

/-- The value of `STATUS` (R28, R164). -/
def State.statusWord (s : State) : Word := if s.busy then 1#32 else 0#32

/-- `NQ` commands are in flight, so that a launch holds (R166). -/
def State.queueFull (s : State) : Bool := decide (s.plat.nq ≤ s.queue.length)

/-- The write of `w` to `CMD` does not complete (R163, R166; log 7). -/
def State.hold (s : State) (w : Word) : State := { s with heldWrite := some w }

/-- `Q <- Q ++ [c]` (R163). -/
def State.enqueue (s : State) (c : Command) : State := { s with queue := s.queue ++ [c] }

/-- `c.PEND <- c.PEND \ { co }` for the record `c` at place `pos` (41_single_converter.md R126). -/
def State.dropLane (s : State) (pos : Nat) (c : Command) (co : Coord) : State :=
  { s with queue := s.queue.set pos { c with pend := c.pend.erase co } }

/-- `Q <- Q without c` (R167). Later commands may use the bytes at once; the host owns them only when it has read `BUSY` =
0: R70 and R167 differ here, and the stricter one is followed (20_memory.md R70; DEDUCED, log 8). -/
def State.retire (s : State) (pos : Nat) (c : Command) : State :=
  { s with queue := s.queue.eraseIdx pos, unjoined := s.unjoined ++ [c] }

/-- The commands whose buffers the host does not own (20_memory.md R70; log 8). -/
def State.owned (s : State) : List Command := s.queue ++ s.unjoined

/-! ### Free values (00_scope.md R10 `any_N`; log 4) -/

/-- `len` fresh free bytes. -/
def freeBytes (draws len : Nat) : List Byte := (List.range len).map (fun j => Config.any8 (draws + j))

/-- The refusal a decoding error becomes (30_encoding.md R84, R85). -/
def refusalOf : DecodeError → Refusal
  | .reservedOpcode => .reservedOpcode
  | .reservedField => .reservedField

end Sys2Proof.Machine
end

