-- ==== Sys2Proof/Machine/Operands.lean ====
section
/-! DEFINITION. Where operands come from: the register block (10_state.md R21, R29), the operands latched at a launch
(30_encoding.md R88), the extents of a command (20_memory.md R56) and the addresses of a lane (41_single_converter.md
R133, 42_batched_converter.md R142). -/

namespace Sys2Proof.Machine

/-- A register of the block (R29). -/
inductive RegName where
  | accBase
  | resBase
  | count
  | cmd
  | status
  deriving DecidableEq, Repr

/-- The register that an access of `width` bytes at `offset` reaches: each is accessed whole, at its own offset (R29). -/
def regAt (offset width : Nat) : Option RegName :=
  if offset = 0x00 ∧ width = 8 then some .accBase
  else if offset = 0x08 ∧ width = 8 then some .resBase
  else if offset = 0x10 ∧ width = 8 then some .count
  else if offset = 0x18 ∧ width = 4 then some .cmd
  else if offset = 0x1C ∧ width = 4 then some .status
  else none

/-- The operand registers as a launch reads them (30_encoding.md R88). -/
structure LaunchOperands where
  n : DWord
  ab : DWord
  rb : DWord
  deriving DecidableEq, Repr

/-- The operands of a launch, if all three registers have been written since reset (30_encoding.md R88). -/
def State.operands (s : State) : Option LaunchOperands :=
  match s.count, s.accBase, s.resBase with
  | some n, some ab, some rb => some ⟨n, ab, rb⟩
  | _, _, _ => none

/-- `m`: the number of sub-buffers (20_memory.md R56). -/
def Command.subBuffers (c : Command) : Nat :=
  match c.op with
  | .convert => 1
  | .convertBatched => c.idx

/-- The number of elements of either buffer (20_memory.md R60). -/
def Command.elements (c : Command) : Nat := c.subBuffers * c.n.toNat

/-- `AccExt` (20_memory.md R56). -/
def Command.accExt (c : Command) : Extent := ⟨c.ab.toNat, c.ab.toNat + 4 * c.elements⟩

/-- `ResExt` (20_memory.md R56). -/
def Command.resExt (c : Command) : Extent := ⟨c.rb.toNat, c.rb.toNat + c.elements⟩

/-- The extents of two commands have no byte in common (20_memory.md R64). -/
def Command.apart (c d : Command) : Bool :=
  !c.accExt.meets d.accExt && !c.accExt.meets d.resExt && !c.resExt.meets d.accExt && !c.resExt.meets d.resExt

/-- `off`: the element offset of sub-buffer `k` (42_batched_converter.md R142). -/
def Command.subOffset (c : Command) (k : Nat) : Nat := k * c.n.toNat

/-- Load address of element group `g` of the sub-buffer at element offset `off` (R133, R142). -/
def Command.loadAddr (c : Command) (off g : Nat) : Nat := c.ab.toNat + 4 * off + 16 * g

/-- Store address of element group `g` of the sub-buffer at element offset `off` (R133, R142). -/
def Command.storeAddr (c : Command) (off g : Nat) : Nat := c.rb.toNat + off + 4 * g

/-- The modulus index a lane of the command applies (41_single_converter.md R126, 42_batched_converter.md R143). -/
def Command.laneIndex (c : Command) (co : Coord) : Nat :=
  match c.op with
  | .convert => c.idx
  | .convertBatched => co.k

/-- The element offset a lane of the command works at (R133, R142). -/
def Command.laneOffset (c : Command) (co : Coord) : Nat :=
  match c.op with
  | .convert => 0
  | .convertBatched => c.subOffset co.k

/-! ### The lane grid (41_single_converter.md R121, 42_batched_converter.md R141) -/

/-- `GX(n) = B × ceil((n/4) / B)` (R121). -/
def Platform.gridWidth (p : Platform) (n : Nat) : Nat :=
  p.lanesPerBlock * ((n / 4 + (p.lanesPerBlock - 1)) / p.lanesPerBlock)

/-- The coordinates of one modulus index. -/
def gridRow (width k : Nat) : List Coord := (List.range width).map (fun g => ⟨g, k⟩)

/-- The lanes of a command: `g < GX(n)` (R121), and for CONVERT_BATCHED also `k < m` (R141); the order in the list means
nothing (R144; log 22). -/
def Platform.grid (p : Platform) (op : Op) (idx n : Nat) : List Coord :=
  match op with
  | .convert => gridRow (p.gridWidth n) 0
  | .convertBatched => (List.range idx).flatMap (gridRow (p.gridWidth n))

/-- The record that a launch creates (43_control.md R163). -/
def newCommand (p : Platform) (op : Op) (idx : Nat) (o : LaunchOperands) : Command where
  op := op
  idx := idx
  n := o.n
  ab := o.ab
  rb := o.rb
  pend := p.grid op idx o.n.toNat

end Sys2Proof.Machine
end

