-- ==== Sys2Proof/Machine/Flags.lean ====
section
/-! DEFINITION. CORE has no flag that survives a step (10_state.md R26). These are the transient predicates that a lane
computes and consumes, and the masks made of them. -/

namespace Sys2Proof.Machine

/-- `active(g, n) = (g < n/4)` (10_state.md R26 (a), 41_single_converter.md R122). -/
def active (g n : Nat) : Bool := decide (g < n / 4)

/-- The sign bit of a value held in 32-bit two's complement (10_state.md R26 (b), (c)). -/
def signBit32 (z : Int) : Bool := (BitVec.ofInt 32 z).msb

/-- `mask_32(b)`: 32 copies of a bit (00_scope.md R9). -/
def mask32 (b : Bool) : Word := if b then BitVec.allOnes 32 else 0#32

end Sys2Proof.Machine
end

