-- ==== Sys2Proof/Machine/Reducer.lean ====
section
/-! DEFINITION. REDUCER and the element operations (40_reducer.md R100 to R117). -/

namespace Sys2Proof.Machine

/-- MULHI (R102): the high half of the signed 64-bit product. -/
def mulhi (x invp : Word) : Word := ((x.signExtend 64) * (invp.signExtend 64)).extractLsb' 32 32

/-- MSUB (R103): the remainder candidate, exact. -/
def msub (x q : Word) (p : BitVec 9) : Int := x.toInt - q.toInt * (p.toNat : Int)

/-- The difference `d` whose sign gates the subtraction (R105). -/
def corrDiff (t : Int) (p : BitVec 9) : Int := t - (p.toNat : Int)

/-- `sub` (R105): p when `t ≥ p`, else 0. -/
def corrSub (t : Int) (p : BitVec 9) : Word := (p.setWidth 32) &&& ~~~ (mask32 (signBit32 (corrDiff t p)))

/-- `add` (R105): p when `t < 0`, else 0. -/
def corrAdd (t : Int) (p : BitVec 9) : Word := (p.setWidth 32) &&& mask32 (signBit32 t)

/-- CORR (R105): both corrections, by masks taken from the candidate itself. -/
def corr (t : Int) (p : BitVec 9) : Int := t - ((corrSub t p).toNat : Int) + ((corrAdd t p).toNat : Int)

/-- NARROW8 (R106). -/
def narrow8 (y32 : Int) : Byte := (BitVec.ofInt 32 y32).extractLsb' 0 8

/-- The contract domain of REDUCER (R101). -/
def inDomain (invp : Word) (p : BitVec 9) : Bool :=
  decide (2 ≤ p.toNat ∧ p.toNat ≤ 256 ∧ invp.toInt = (2 ^ 32 / p.toNat : Nat) - 1)

/-- REDUCE (R107), and outside its domain the free byte (R109). -/
def reduce (x invp : Word) (p : BitVec 9) (free : Byte) : Byte :=
  if inDomain invp p then narrow8 (corr (msub x (mulhi x invp) p) p) else free

/-- TRUNC8 (R110). -/
def trunc8 (x : Word) : Byte := x.extractLsb' 0 8

/-- ELEMOP (R116): truncation at index 0, else the reducer with the zero-extended table modulus (R117). An index that
the table does not have is never evaluated (10_state.md R30; log 23). -/
def elemOp (p : Platform) (i : Nat) (x : Word) (free : Byte) : Byte :=
  if i = 0 then trunc8 x
  else match p.lookup i with
    | some d => reduce x d.invp (d.p.setWidth 9) free
    | none => free

end Sys2Proof.Machine
end

