-- ==== Sys2Proof/Machine/Lanes.lean ====
section
/-! DEFINITION. What the lanes of both commands share: VLD4, ELEM4, VST4 (41_single_converter.md R123 to R125) and the
launch of a command (43_control.md R162, R163). -/

namespace Sys2Proof.Machine

/-- VLD4 (R123): the 4 elements at `a`, lowest address first. -/
def vld4 (m : Memory) (a : Nat) : List Word := (List.range 4).map (fun j => m.accRead (a + 4 * j))

/-- ELEM4 (R124): ELEMOP on each element; each may draw a free byte of its own. -/
def elem4 (p : Platform) (i : Nat) (vin : List Word) (draws : Nat) : List Byte :=
  vin.mapIdx (fun j x => elemOp p i x (Config.any8 (draws + j)))

/-- VST4 (R125): one byte each, lowest address first. -/
def vst4 (m : Memory) (a : Nat) (vout : List Byte) : Memory := m.storeBytes a vout

/-- What an active lane does to memory: load at `la`, operate with index `i`, store at `sa`
(41_single_converter.md R126, 42_batched_converter.md R143). -/
def groupStep (i la sa : Nat) (s : State) : Result :=
  if addrSpace < la + 16 ∨ addrSpace < sa + 4 then .fault .noSuchAddress
  else .next { s with
    mem := vst4 s.mem sa (elem4 s.plat i (vld4 s.mem la) s.draws)
    draws := s.draws + 4 }

/-! ### Launching (43_control.md R162, R163) -/

/-- The check of the index operand (R162 checks 5 and 6). -/
def indexCheck (p : Platform) (c : Command) : Bool × Refusal :=
  match c.op with
  | .convert => (decide (c.idx < p.nmod), .indexOutOfRange)
  | .convertBatched => (decide (c.idx ≤ p.nmod), .numModuliOutOfRange)

/-- Checks 4 to 12 of R162 on the record a launch would create, each with the reason for its failure. -/
def admissionChecks (s : State) (c : Command) : List (Bool × Refusal) :=
  [ (decide (c.n.toNat % 16 = 0), .countGranularity),
    indexCheck s.plat c,
    (decide (c.ab.toNat % 16 = 0 ∧ c.rb.toNat % 4 = 0), .misalignedBase),
    (decide (c.accExt.hi ≤ addrSpace ∧ c.resExt.hi ≤ addrSpace), .extentOverflow),
    (s.plat.accessible c.accExt && s.plat.accessible c.resExt, .extentNotAccessible),
    (!c.accExt.meets c.resExt, .inPlace),
    (s.queue.all (fun d => c.apart d), .overlapInFlight),
    (s.plat.tableConsistent, .tableInconsistent) ]

/-- The reason of the first check that fails; the order is immaterial (60_exceptions.md R180; log 12). -/
def firstFailure : List (Bool × Refusal) → Option Refusal
  | [] => none
  | (ok, r) :: rest => if ok then firstFailure rest else some r

/-- LAUNCH (R163) of a decoded command whose word is `w`: hold while the queue is full, refuse if not admitted, else
append the record. No byte of `M` changes. -/
def launch (w : Word) (op : Op) (idx : Nat) (s : State) : Result :=
  if s.queueFull then .next (s.hold w)
  else match s.operands with
    | none => .refused .operandUnwritten
    | some o =>
      match firstFailure (admissionChecks s (newCommand s.plat op idx o)) with
      | some r => .refused r
      | none => .next (s.enqueue (newCommand s.plat op idx o))

end Sys2Proof.Machine
end

