-- ==== Sys2Proof/Machine/Batched.lean ====
section
/-! DEFINITION. The batched multi-modulus converter: LANE.B and CONVERT_BATCHED (42_batched_converter.md R143, R145). -/

namespace Sys2Proof.Machine

/-- LANE.B (R143): one lane step of a CONVERT_BATCHED record `c` at place `pos` of the queue; the index is `k`. -/
def laneB (pos : Nat) (c : Command) (co : Coord) (s : State) : Result :=
  if active co.g c.n.toNat then
    groupStep co.k (c.loadAddr (c.subOffset co.k) co.g) (c.storeAddr (c.subOffset co.k) co.g) (s.dropLane pos c co)
  else .next (s.dropLane pos c co)

/-- CONVERT_BATCHED (R145): its execution is the launch of the command (43_control.md R163); the lanes follow as steps
of their own. -/
def execConvertBatched (m : Nat) (s : State) : Result :=
  launch (encode (.convertBatched m)) .convertBatched m s

end Sys2Proof.Machine
end

