-- ==== Sys2Proof/Machine/Single.lean ====
section
/-! DEFINITION. The single-modulus converter: LANE.S and CONVERT (41_single_converter.md R126, R128). -/

namespace Sys2Proof.Machine

/-- LANE.S (R126): one lane step of a CONVERT record `c` at place `pos` of the queue. -/
def laneS (pos : Nat) (c : Command) (co : Coord) (s : State) : Result :=
  if active co.g c.n.toNat then
    groupStep c.idx (c.loadAddr 0 co.g) (c.storeAddr 0 co.g) (s.dropLane pos c co)
  else .next (s.dropLane pos c co)

/-- CONVERT (R128): its execution is the launch of the command (43_control.md R163); the lanes follow as steps of their
own. -/
def execConvert (idx : Nat) (s : State) : Result := launch (encode (.convert idx)) .convert idx s

end Sys2Proof.Machine
end

