-- ==== Sys2Proof/Machine/Dispatch.lean ====
section
/-! DEFINITION. One arm per command (30_encoding.md R83). -/

namespace Sys2Proof.Machine

def exec (i : Instr) (s : State) : Host.Outcome State Fault Refusal :=
  match i with
  | .convert idx => Sys2Proof.Machine.execConvert idx s
  | .convertBatched m => Sys2Proof.Machine.execConvertBatched m s

end Sys2Proof.Machine
end

