-- ==== Sys2Proof/Machine/Control.lean ====
section
/-! DEFINITION. The host interface and the step relation (43_control.md R160 to R170, 20_memory.md R70,
70_reset_and_hazards.md R200). -/

namespace Sys2Proof.Machine

/-! ### Register access -/

/-- A write of `w` to `CMD` (43_control.md R163): a full queue is tested before anything else (60_exceptions.md R180). -/
def writeCmd (w : Word) (s : State) : Result :=
  match decode w with
  | .ok i => exec i s
  | .error e => if s.queueFull then .next (s.hold w) else .refused (refusalOf e)

/-- WR and the other register writes (43_control.md R160; 10_state.md R27, R28, R29). -/
def regWrite (offset width : Nat) (value : DWord) (s : State) : Result :=
  match regAt offset width with
  | some .accBase => .next { s with accBase := some value }
  | some .resBase => .next { s with resBase := some value }
  | some .count => .next { s with count := some value }
  | some .cmd => writeCmd (value.setWidth 32) s
  | some .status => .next s
  | none => .refused .badRegisterAccess

/-- RD of an operand register (43_control.md R161): its value, or a free one while it is unwritten. -/
def readOperand (r : Option DWord) (s : State) : State :=
  match r with
  | some v => { s with lastRead := .dword v }
  | none => { s with lastRead := .dword (Config.any64 s.draws), draws := s.draws + 1 }

/-- RD STATUS (43_control.md R164). A read of `BUSY` = 0 gives the host its buffers back (20_memory.md R70). -/
def readStatus (s : State) : State :=
  { s with
    lastRead := .word s.statusWord
    unjoined := if s.busy then s.unjoined else [] }

/-- RD and the other register reads (43_control.md R161, R164; 10_state.md R27, R29). -/
def regRead (offset width : Nat) (s : State) : Result :=
  match regAt offset width with
  | some .accBase => .next (readOperand s.accBase s)
  | some .resBase => .next (readOperand s.resBase s)
  | some .count => .next (readOperand s.count s)
  | some .cmd => .next { s with lastRead := .word 0#32 }
  | some .status => .next (readStatus s)
  | none => .refused .badRegisterAccess

/-! ### Host access to memory (20_memory.md R70) -/

/-- Some byte of the range belongs to a command whose buffers the host does not own (R70 (a)). -/
def State.hostRaces (s : State) (e : Extent) : Bool :=
  s.owned.any (fun c => e.meets c.accExt || e.meets c.resExt)

/-- The byte is a residue byte the host may not rely on (R70 (b)). -/
def State.inFlightResidue (s : State) (a : Nat) : Bool :=
  s.owned.any (fun c => decide (c.resExt.has a))

/-- What a host read of the byte at `a` gives; `free` where R70 (b) fixes nothing. -/
def State.hostByte (s : State) (a : Nat) (free : Byte) : Byte :=
  if s.inFlightResidue a then free else s.mem.read a

/-- A host write to `M` (R70, R170). -/
def memWrite (addr : DWord) (bytes : List Byte) (s : State) : Result :=
  if addrSpace < addr.toNat + bytes.length then .fault .noSuchAddress
  else if s.hostRaces ⟨addr.toNat, addr.toNat + bytes.length⟩ then .refused .hostRace
  else .next { s with mem := s.mem.storeBytes addr.toNat bytes }

/-- A host read of `M` (R70, R170). -/
def memRead (addr : DWord) (len : Nat) (s : State) : Result :=
  if addrSpace < addr.toNat + len then .fault .noSuchAddress
  else .next { s with
    lastRead := .bytes ((List.range len).map (fun j => s.hostByte (addr.toNat + j) (Config.any8 (s.draws + j))))
    draws := s.draws + len }

/-! ### The host -/

/-- One polling round of JOIN (43_control.md R165): RD STATUS, and again as long as `BUSY` is 1 (log 25). -/
def joinRound (s : State) : State :=
  { readStatus s with program := if s.busy then .join :: s.program else s.program }

/-- One action of the host, taken off its program. -/
def hostAction (a : HostAction) (s : State) : Result :=
  match a with
  | .regWrite offset width value => regWrite offset width value s
  | .regRead offset width => regRead offset width s
  | .join => .next (joinRound s)
  | .memWrite addr bytes => memWrite addr bytes s
  | .memRead addr len => memRead addr len s

/-- The host's step: a held `CMD` write comes again (43_control.md R166), else the next action of its program. -/
def hostStep (s : State) : Result :=
  match s.heldWrite with
  | some w => writeCmd w { s with heldWrite := none }
  | none =>
    match s.program with
    | [] => .next s
    | a :: rest => hostAction a { s with program := rest }

/-! ### Lanes, retirement, reset, the table -/

/-- The step of a lane of the record `c` at place `pos`. -/
def laneStep (pos : Nat) (c : Command) (co : Coord) (s : State) : Result :=
  match c.op with
  | .convert => laneS pos c co s
  | .convertBatched => laneB pos c co s

/-- The lane steps if it is pending (43_control.md R170); a lane that is not takes no step (log 14). -/
def laneMove (pos : Nat) (co : Coord) (s : State) : Result :=
  match s.queue[pos]? with
  | some c => if co ∈ c.pend then laneStep pos c co s else .next s
  | none => .next s

/-- RETIRE (43_control.md R167), enabled for a record with nothing pending (log 14). -/
def retireMove (pos : Nat) (s : State) : Result :=
  match s.queue[pos]? with
  | some c => if c.pend = [] then .next (s.retire pos c) else .next s
  | none => .next s

/-- Every byte of the residue extents of the commands becomes a free byte (70_reset_and_hazards.md R203). -/
def scramble : Memory → Nat → List Command → Memory
  | m, _, [] => m
  | m, d, c :: cs => scramble (m.storeBytes c.rb.toNat (freeBytes d c.elements)) (d + c.elements) cs

/-- How many free bytes `scramble` draws. -/
def scrambleDraws (cs : List Command) : Nat := (cs.map Command.elements).sum

/-- RESET (70_reset_and_hazards.md R200). The host's side is not CORE's and stays (log 11). DESIGN CHOICE: the host does
not own the buffers of a discarded command either until it has read `BUSY` = 0, as R70 counts from its launch (log 8). -/
def resetMove (s : State) : State :=
  { s with
    accBase := none
    resBase := none
    count := none
    queue := []
    unjoined := s.unjoined ++ s.queue
    mem := scramble s.mem s.draws s.queue
    draws := s.draws + scrambleDraws s.queue }

/-- The platform rewrites a table entry, which it may do only while `Q` is empty (10_state.md R34). -/
def loadMove (copy : TableCopy) (i : Nat) (d : Descriptor) (s : State) : Result :=
  if s.busy then .refused .tableChangedInFlight
  else .next { s with plat := s.plat.setEntry copy d i }

/-! ### The step relation (43_control.md R170) -/

/-- One move of one agent. -/
def takeMove (mv : Move) (s : State) : Result :=
  match mv with
  | .host => hostStep s
  | .lane pos co => laneMove pos co s
  | .retire pos => retireMove pos s
  | .reset => .next (resetMove s)
  | .loadEntry copy i d => loadMove copy i d s

/-- The host's enabled step: none when its program has ended, and none while it holds (00_scope.md R10 `hold`). -/
def hostMoves (s : State) : List Move :=
  match s.heldWrite with
  | some _ => if s.queueFull then [] else [.host]
  | none => if s.program.isEmpty then [] else [.host]

/-- The enabled steps of the record at place `pos`: its pending lanes, or its retirement (R126, R167). -/
def recordMoves (pos : Nat) (c : Command) : List Move :=
  if c.pend.isEmpty then [.retire pos] else c.pend.map (.lane pos)

/-- The enabled steps of CORE, those of the oldest record first. -/
def coreMoves (s : State) : List Move := (s.queue.mapIdx recordMoves).flatten

/-- The enabled steps of the host and of CORE; RESET and table loads come from outside, through the agenda (log 5). -/
def enabledMoves (s : State) : List Move := hostMoves s ++ coreMoves s

/-- A free choice among the enabled steps; none when nothing is enabled (log 5). -/
def pickMove (s : State) : Option Move := (enabledMoves s)[Config.pick s.draws % (enabledMoves s).length]?

/-- The step that is due, if it is enabled: the host's and CORE's in turn (R168; log 28). -/
def dueMove (s : State) : Option Move :=
  if s.turn.hostDue then (hostMoves s).head? else (coreMoves s).head?

/-- The mover where the agenda names none: free while patience lasts, then the step that is due. So every schedule is
weakly fair (R168), and no weakly fair schedule is left out (log 28). -/
def freeMove (s : State) : Option Move :=
  if s.turn.patience = 0 then (dueMove s).or (pickMove s) else pickMove s

/-- Counts one free choice; when patience has run out, the other agent's step becomes due after a new free number of
choices (log 28). -/
def State.passTurn (s : State) : State :=
  { s with
    draws := s.draws + 1
    turn := if s.turn.patience = 0 then ⟨!s.turn.hostDue, Config.patience s.draws⟩
      else { s.turn with patience := s.turn.patience - 1 } }

/-- One step: the agenda's next move, or a weakly fair choice among the enabled ones (log 5, log 28); with nothing enabled
the machine is idle (60_exceptions.md R187; log 26). -/
def advance (s : State) : Result :=
  match s.agenda with
  | mv :: rest => takeMove mv { s with agenda := rest }
  | [] =>
    match freeMove s with
    | some mv => takeMove mv s.passTurn
    | none => .next s

/-- Puts the word where the host's next step writes it to `CMD`, and makes that step the next one (log 6). -/
def State.presentWord (s : State) (w : Word) : State :=
  { s with heldWrite := some w, agenda := .host :: s.agenda }

end Sys2Proof.Machine
end

