-- ==== Sys2Proof/Safety.lean ====
section
/-! DEFINITION. What the statements speak of: valid tables, admitted launches, and the states that runs keep to. -/

namespace Sys2Proof.Machine

/-! ### The table (10_state.md R31, R32) -/

/-- A valid descriptor (R32; `p ≤ 255` is the width of the field). -/
def Descriptor.Valid (d : Descriptor) : Prop :=
  2 ≤ d.p.toNat ∧ d.invp.toInt = (2 ^ 32 / d.p.toNat : Nat) - 1

/-- The index can be computed with: it is 0, which reads no descriptor (R31), or its descriptor is valid (R32). -/
def Platform.ValidIndex (p : Platform) (i : Nat) : Prop := i = 0 ∨ ∃ d, p.lookup i = some d ∧ d.Valid

/-- `TableValid(MT)`: every entry 1 .. `NMOD`−1 is valid (R32). -/
def Platform.TableValid (p : Platform) : Prop := ∀ i, i < p.nmod → p.ValidIndex i

/-- `P_i`, the logical modulus of an index: 256 at index 0 (R31), else the stored one (41_single_converter.md R128). -/
def Platform.modulus (p : Platform) (i : Nat) : Int :=
  if i = 0 then 256
  else match p.lookup i with
    | some d => (d.p.toNat : Int)
    | none => 0

/-- The byte is the residue of the element modulo `P_i`, with the floored `mod` of 00_scope.md R9 (Lean's `%` on `Int`
by a positive number). -/
def IsResidue (p : Platform) (i : Nat) (x : Word) (y : Byte) : Prop := (y.toNat : Int) = x.toInt % p.modulus i

/-! ### Admission (43_control.md R162) -/

/-- Checks 4 to 12 of R162 on the record `c` that a launch would create, in the spec's words: byte by byte where the
spec speaks of bytes. Check 12 takes in the copies of `MT[0]` (DESIGN CHOICE, log 27). -/
structure Admitted (s : State) (c : Command) : Prop where
  granularity : c.n.toNat % 16 = 0
  indexInRange : c.op = .convert → c.idx < s.plat.nmod
  numModuliInRange : c.op = .convertBatched → c.idx ≤ s.plat.nmod
  accAligned : c.ab.toNat % 16 = 0
  resAligned : c.rb.toNat % 4 = 0
  accFits : c.accExt.hi ≤ addrSpace
  resFits : c.resExt.hi ≤ addrSpace
  accAccessible : ∀ a, c.accExt.has a → s.plat.AccessibleByte a
  resAccessible : ∀ a, c.resExt.has a → s.plat.AccessibleByte a
  notInPlace : ∀ a, ¬(c.accExt.has a ∧ c.resExt.has a)
  notOverlapping : ∀ d ∈ s.queue, ∀ a, ¬((c.accExt.has a ∨ c.resExt.has a) ∧ (d.accExt.has a ∨ d.resExt.has a))
  tableConsistent : ∀ t ∈ s.plat.slot0 :: s.plat.genuine, t.host = t.device

/-- The operation a command word names (30_encoding.md R83). -/
def opOf : Instr → Op
  | .convert _ => .convert
  | .convertBatched _ => .convertBatched

/-- The index operand of a command word (30_encoding.md R82). -/
def indexOf : Instr → Nat
  | .convert idx => idx
  | .convertBatched m => m

/-- What a refusal of a launch says about the state and the command (43_control.md R162, 60_exceptions.md R178). -/
def ReasonHolds (s : State) (i : Instr) (r : Refusal) : Prop :=
  match r with
  | .operandUnwritten => s.count = none ∨ s.accBase = none ∨ s.resBase = none
  | .countGranularity => ∃ n, s.count = some n ∧ n.toNat % 16 ≠ 0
  | .indexOutOfRange => ∃ idx, i = .convert idx ∧ s.plat.nmod ≤ idx
  | .numModuliOutOfRange => ∃ m, i = .convertBatched m ∧ s.plat.nmod < m
  | .misalignedBase => ∃ o, s.operands = some o ∧ (o.ab.toNat % 16 ≠ 0 ∨ o.rb.toNat % 4 ≠ 0)
  | .extentOverflow => ∃ o, s.operands = some o ∧
      (2 ^ 64 < (newCommand s.plat (opOf i) (indexOf i) o).accExt.hi ∨
       2 ^ 64 < (newCommand s.plat (opOf i) (indexOf i) o).resExt.hi)
  | .extentNotAccessible => ∃ o a, s.operands = some o ∧ ¬s.plat.AccessibleByte a ∧
      ((newCommand s.plat (opOf i) (indexOf i) o).accExt.has a ∨ (newCommand s.plat (opOf i) (indexOf i) o).resExt.has a)
  | .inPlace => ∃ o a, s.operands = some o ∧
      (newCommand s.plat (opOf i) (indexOf i) o).accExt.has a ∧ (newCommand s.plat (opOf i) (indexOf i) o).resExt.has a
  | .overlapInFlight => ∃ o a d, s.operands = some o ∧ d ∈ s.queue ∧
      ((newCommand s.plat (opOf i) (indexOf i) o).accExt.has a ∨ (newCommand s.plat (opOf i) (indexOf i) o).resExt.has a) ∧
      (d.accExt.has a ∨ d.resExt.has a)
  | .tableInconsistent => ∃ t ∈ s.plat.slot0 :: s.plat.genuine, t.host ≠ t.device
  | _ => False

/-! ### What every run keeps -/

/-- What a record in `Q` is like (41_single_converter.md R121, 42_batched_converter.md R141, 43_control.md R162). -/
structure CommandOk (p : Platform) (c : Command) : Prop where
  granularity : c.n.toNat % 16 = 0
  indexInRange : c.op = .convert → c.idx < p.nmod
  numModuliInRange : c.op = .convertBatched → c.idx ≤ p.nmod
  accAligned : c.ab.toNat % 16 = 0
  resAligned : c.rb.toNat % 4 = 0
  accFits : c.accExt.hi ≤ addrSpace
  resFits : c.resExt.hi ≤ addrSpace
  accAccessible : ∀ a, c.accExt.has a → p.AccessibleByte a
  resAccessible : ∀ a, c.resExt.has a → p.AccessibleByte a
  notInPlace : ∀ a, ¬(c.accExt.has a ∧ c.resExt.has a)
  pendInGrid : ∀ co ∈ c.pend, co ∈ p.grid c.op c.idx c.n.toNat
  pendNodup : c.pend.Nodup

/-- The extents of two records have no byte in common (20_memory.md R64). -/
def Command.Disjoint (c d : Command) : Prop :=
  ∀ a, ¬((c.accExt.has a ∨ c.resExt.has a) ∧ (d.accExt.has a ∨ d.resExt.has a))

/-- The invariant of the queue: at most `NQ` records, each as a launch creates it, their extents pairwise disjoint, and
the table consistent while any is in flight (10_state.md R33, R34, R35; 20_memory.md R64). -/
structure QueueOk (s : State) : Prop where
  depth : s.queue.length ≤ s.plat.nq
  records : ∀ c ∈ s.queue, CommandOk s.plat c
  disjoint : s.queue.Pairwise Command.Disjoint
  consistent : s.queue ≠ [] → ∀ t ∈ s.plat.slot0 :: s.plat.genuine, t.host = t.device

/-- The invariant of memory: the canonical form, and only addresses that exist (20_memory.md R50). -/
def MemoryOk (s : State) : Prop := s.mem.wf = true ∧ s.mem.inSpace = true

/-- A lane that is not pending any more has left its four residues: byte j of its group is the residue of element j
(41_single_converter.md R126, R128; 42_batched_converter.md R143, R147). -/
def LaneStored (s : State) (c : Command) (co : Coord) : Prop :=
  ∀ j, j < 4 →
    IsResidue s.plat (c.laneIndex co)
      (s.mem.accRead (c.loadAddr (c.laneOffset co) co.g + 4 * j))
      (s.mem.read (c.storeAddr (c.laneOffset co) co.g + j))

/-- Every active lane that has stepped, of every command in flight, with a usable index, has left its residues, and they
are still there. -/
def ResiduesStored (s : State) : Prop :=
  ∀ c ∈ s.queue, ∀ co ∈ s.plat.grid c.op c.idx c.n.toNat, co ∉ c.pend → active co.g c.n.toNat = true →
    s.plat.ValidIndex (c.laneIndex co) → LaneStored s c co

/-- The modulus index of the element e of a command's concatenated buffers (20_memory.md R54). -/
def Command.elementIndex (c : Command) (e : Nat) : Nat :=
  match c.op with
  | .convert => c.idx
  | .convertBatched => e / c.n.toNat

/-- The configuration that no step changes: all of the platform but the entries of its table (10_state.md R39). -/
def sameParameters (p q : Platform) : Prop :=
  q.nmod = p.nmod ∧ q.moreLanes = p.moreLanes ∧ q.moreSlots = p.moreSlots ∧ q.regions = p.regions ∧ q.regBase = p.regBase

/-- The moves that let a command's lanes step in the given order and then retire it, after the host's launch. -/
def wholeCommand (pos : Nat) (order : List Coord) : List Move :=
  .host :: (order.map (.lane pos) ++ [.retire pos])

/-- The command `i`, launched now and its lanes then run in the given order and retired, converts its buffer: every
residue byte whose index is usable is the residue of its element as memory was at the launch, and no other byte, no
record, no operand register and nothing of the platform has changed (41_single_converter.md R128,
42_batched_converter.md R145, R147, R149 (h)). -/
def ConvertsItsBuffer (s : State) (i : Instr) (c : Command) (order : List Coord) (rest : List Move) : Prop :=
  ∃ t : State,
    Sys2Proof.core.run (order.length + 2)
      { s with heldWrite := some (encode i), agenda := wholeCommand s.queue.length order ++ rest } = .next t ∧
    (∀ e, e < c.elements → s.plat.ValidIndex (c.elementIndex e) →
      IsResidue s.plat (c.elementIndex e) (s.mem.accRead (c.ab.toNat + 4 * e)) (t.mem.read (c.rb.toNat + e))) ∧
    (∀ a, ¬c.resExt.has a → t.mem.read a = s.mem.read a) ∧
    t.queue = s.queue ∧ t.plat = s.plat ∧ t.accBase = s.accBase ∧ t.resBase = s.resBase ∧ t.count = s.count ∧
    t.agenda = rest

/-- How many lane steps are still owed (43_control.md R168, R170). -/
def pendingLanes (s : State) : Nat := (s.queue.map (fun c => c.pend.length)).sum

/-- The move that the next step takes, if any. -/
def nextMove (s : State) : Option Move :=
  match s.agenda with
  | mv :: _ => some mv
  | [] => freeMove s

/-- Weak fairness of a run (43_control.md R168): no step of the host or of CORE is enabled from some point on for ever
and never taken. -/
def WeaklyFair (run : Nat → State) : Prop :=
  ∀ n mv, ∃ m, n ≤ m ∧ (mv ∉ enabledMoves (run m) ∨ nextMove (run m) = some mv)

/-- The run is finished: the host's program has ended, nothing is held and `Q` is empty (43_control.md R170). -/
def Finished (s : State) : Prop := s.agenda = [] ∧ s.program = [] ∧ s.heldWrite = none ∧ s.queue = []

/-- The run from `s` comes to its end: after finitely many steps it is finished, or it has stopped at a step that is
refused or faults. -/
def ComesToItsEnd (s : State) : Prop :=
  ∃ k, (∃ t, Sys2Proof.core.run k s = .next t ∧ Finished t) ∨ (∃ r, Sys2Proof.core.run k s = .refused r) ∨
    ∃ f, Sys2Proof.core.run k s = .fault f

/-- The host is next to move, and `a` is the action it takes. -/
def HostIsNext (s : State) (a : HostAction) (rest : List Move) (prog : List HostAction) : Prop :=
  s.agenda = .host :: rest ∧ s.heldWrite = none ∧ s.program = a :: prog

end Sys2Proof.Machine
end

