-- ==== Sys2Proof/Certificates/Slice0/Obligations.lean ====
section
/-! DEFINITION. The statements for the provers. -/

open Sys2Proof Sys2Proof.Machine

/-! ### Encoding (30_encoding.md) -/

/-- Words of 95_test_vectors.md section 2.7, bits written out from R81 and R83. -/
def Obligations.SpecWordsDecode : Prop :=
  decode 0b00000001000000000000000000000000#32 = .ok (.convert 0) ∧
  decode 0b00000001000000000000000000000011#32 = .ok (.convert 3) ∧
  decode 0b00000010000000000000000000000010#32 = .ok (.convertBatched 2) ∧
  decode 0b00000011000000000000000000000000#32 = .error .reservedOpcode ∧
  decode 0b00000001000000010000000000000001#32 = .error .reservedField

/-- Decoding the word of a well-formed command gives it back (R81, R82, R83). -/
def Obligations.DecodeOfEncodeIsTheCommand : Prop :=
  ∀ i : Instr, i.wf = true → decode (encode i) = .ok i

/-- A word that decodes is the word of the command it decodes to, which is well-formed (R81, R83). -/
def Obligations.EncodeOfDecodeIsTheWord : Prop :=
  ∀ (w : Word) (i : Instr), decode w = .ok i → i.wf = true ∧ encode i = w

/-- The decoding procedure of R90, with the fields as numbers. -/
def Obligations.DecodeFollowsTheFields : Prop :=
  ∀ w : Word,
    (w.toNat / 2 ^ 24 ≠ 1 → w.toNat / 2 ^ 24 ≠ 2 → decode w = .error .reservedOpcode) ∧
    (w.toNat / 2 ^ 24 = 1 ∨ w.toNat / 2 ^ 24 = 2 → w.toNat / 2 ^ 16 % 256 ≠ 0 → decode w = .error .reservedField) ∧
    (w.toNat / 2 ^ 24 = 1 → w.toNat / 2 ^ 16 % 256 = 0 → decode w = .ok (.convert (w.toNat % 65536))) ∧
    (w.toNat / 2 ^ 24 = 2 → w.toNat / 2 ^ 16 % 256 = 0 → decode w = .ok (.convertBatched (w.toNat % 65536)))

/-- A step whose mover is the host with a command word runs the decoded command: a held word, a write to `CMD` taken
off the program, a word presented by `withFetchWord`, and a held word where the choice of the mover is free but no
command is in flight. -/
def Obligations.StepRunsTheDecodedCommand : Prop :=
  (∀ (s : State) rest w i, s.agenda = .host :: rest → s.heldWrite = some w → decode w = .ok i →
    step s = exec i { s with agenda := rest, heldWrite := none }) ∧
  (∀ (s : State) rest v prog i, HostIsNext s (.regWrite 0x18 4 v) rest prog → decode (v.setWidth 32) = .ok i →
    step s = exec i { s with agenda := rest, program := prog }) ∧
  (∀ (s : State) (w : Nat) i, w < 2 ^ 32 → decode (BitVec.ofNat 32 w) = .ok i →
    step (s.withFetchWord 32 w) = exec i { s with heldWrite := none }) ∧
  (∀ (s : State) w i, s.agenda = [] → s.queue = [] → s.heldWrite = some w → decode w = .ok i →
    step s = exec i { s.passTurn with heldWrite := none })

/-- A write of a word with a reserved `OPC` (R84), or with a command's `OPC` and `RSV` not 0 (R85), is refused, when the
queue has room (a full queue is tested first, R180); so is such a word that has held, once a slot is free (R180; log 7). -/
def Obligations.ReservedWordsAreRefused : Prop :=
  (∀ (s : State) rest v prog, HostIsNext s (.regWrite 0x18 4 v) rest prog → s.queue.length < s.plat.nq →
    ((v.toNat % 2 ^ 32 / 2 ^ 24 ≠ 1 ∧ v.toNat % 2 ^ 32 / 2 ^ 24 ≠ 2) → step s = .refused .reservedOpcode) ∧
    ((v.toNat % 2 ^ 32 / 2 ^ 24 = 1 ∨ v.toNat % 2 ^ 32 / 2 ^ 24 = 2) → v.toNat / 2 ^ 16 % 256 ≠ 0 →
      step s = .refused .reservedField)) ∧
  (∀ (s : State) rest w, s.agenda = .host :: rest → s.heldWrite = some w → s.queue.length < s.plat.nq →
    ((w.toNat / 2 ^ 24 ≠ 1 ∧ w.toNat / 2 ^ 24 ≠ 2) → step s = .refused .reservedOpcode) ∧
    ((w.toNat / 2 ^ 24 = 1 ∨ w.toNat / 2 ^ 24 = 2) → w.toNat / 2 ^ 16 % 256 ≠ 0 → step s = .refused .reservedField))

/-! ### The register block (10_state.md, 43_control.md) -/

/-- WR sets the register it names and nothing else of the machine (R160, R88: a command launched keeps its operands). -/
def Obligations.RegisterWriteSetsOneRegister : Prop :=
  ∀ (s : State) rest v prog,
    (HostIsNext s (.regWrite 0x00 8 v) rest prog →
      step s = .next { s with agenda := rest, program := prog, accBase := some v }) ∧
    (HostIsNext s (.regWrite 0x08 8 v) rest prog →
      step s = .next { s with agenda := rest, program := prog, resBase := some v }) ∧
    (HostIsNext s (.regWrite 0x10 8 v) rest prog →
      step s = .next { s with agenda := rest, program := prog, count := some v })

/-- RD returns the value written, and a free value while the register is unwritten (R161). -/
def Obligations.RegisterReadReturnsTheValue : Prop :=
  ∀ (s : State) rest prog,
    (HostIsNext s (.regRead 0x00 8) rest prog → ∃ t, step s = .next t ∧
      t.lastRead = .dword (s.accBase.getD (Config.any64 s.draws)) ∧ t.accBase = s.accBase ∧ t.mem = s.mem) ∧
    (HostIsNext s (.regRead 0x08 8) rest prog → ∃ t, step s = .next t ∧
      t.lastRead = .dword (s.resBase.getD (Config.any64 s.draws)) ∧ t.resBase = s.resBase ∧ t.mem = s.mem) ∧
    (HostIsNext s (.regRead 0x10 8) rest prog → ∃ t, step s = .next t ∧
      t.lastRead = .dword (s.count.getD (Config.any64 s.draws)) ∧ t.count = s.count ∧ t.mem = s.mem)

/-- A read of `CMD` gives 0 and a write to `STATUS` is ignored (R27, R28). -/
def Obligations.CmdReadsZeroStatusIgnoresWrites : Prop :=
  ∀ (s : State) rest v prog,
    (HostIsNext s (.regRead 0x18 4) rest prog →
      step s = .next { s with agenda := rest, program := prog, lastRead := .word 0#32 }) ∧
    (HostIsNext s (.regWrite 0x1C 4 v) rest prog → step s = .next { s with agenda := rest, program := prog })

/-- An access at another offset or of another width is refused, and only that: every read at a register's own offset and
width is answered (R29). -/
def Obligations.OnlyWholeRegisterAccesses : Prop :=
  ∀ (s : State) rest v prog offset width,
    (HostIsNext s (.regWrite offset width v) rest prog →
      (offset, width) ∉ [(0x00, 8), (0x08, 8), (0x10, 8), (0x18, 4), (0x1C, 4)] →
      step s = .refused .badRegisterAccess) ∧
    (HostIsNext s (.regRead offset width) rest prog →
      ((∃ t, step s = .next t) ↔ (offset, width) ∈ [(0x00, 8), (0x08, 8), (0x10, 8), (0x18, 4), (0x1C, 4)]) ∧
      ((offset, width) ∉ [(0x00, 8), (0x08, 8), (0x10, 8), (0x18, 4), (0x1C, 4)] →
        step s = .refused .badRegisterAccess))

/-- RD STATUS returns 1 if a command is in flight and else 0 (R164). A read of 0 gives the host the buffers of every
earlier command back, and a read of 1 gives none (R70, R65; the list `unjoined` is the model's, log 8). Nothing else of the
machine changes. -/
def Obligations.StatusReadsBusy : Prop :=
  ∀ (s : State) rest prog, HostIsNext s (.regRead 0x1C 4) rest prog → ∃ t, step s = .next t ∧
    t.lastRead = .word (if s.queue = [] then 0#32 else 1#32) ∧ t.queue = s.queue ∧ t.mem = s.mem ∧
    t.accBase = s.accBase ∧ t.resBase = s.resBase ∧ t.count = s.count ∧ t.plat = s.plat ∧ t.program = prog ∧
    t.unjoined = (if s.queue = [] then [] else s.unjoined) ∧ t.heldWrite = none ∧ t.agenda = rest ∧
    t.draws = s.draws ∧ t.turn = s.turn

/-- JOIN reads `STATUS` and ends exactly when no command is in flight; else it comes again (R165). The round that ends it
gives the host the buffers of every earlier command back, and no other round does (R65, R70; log 8). -/
def Obligations.JoinEndsWhenNothingIsInFlight : Prop :=
  ∀ (s : State) rest prog, HostIsNext s .join rest prog → ∃ t, step s = .next t ∧
    t.lastRead = .word (if s.queue = [] then 0#32 else 1#32) ∧
    t.program = (if s.queue = [] then prog else .join :: prog) ∧ t.queue = s.queue ∧ t.mem = s.mem ∧
    t.unjoined = (if s.queue = [] then [] else s.unjoined) ∧ t.accBase = s.accBase ∧ t.resBase = s.resBase ∧
    t.count = s.count ∧ t.plat = s.plat ∧ t.heldWrite = none ∧ t.agenda = rest ∧ t.draws = s.draws ∧ t.turn = s.turn

/-! ### Launching (43_control.md R162, R163, R166) -/

/-- CONVERT completes: with room in the queue, all operand registers written and every check of R162 passed, it appends
the record with its latched operands and its whole grid, and changes nothing else (R163, R121, R88). Of the checks, that
the copies of `MT[0]` are equal too is the model's own (log 27), here and in every statement on admitted commands. -/
def Obligations.ConvertAppendsItsRecord : Prop :=
  ∀ (idx : Nat) (s : State) (n ab rb : DWord),
    s.count = some n → s.accBase = some ab → s.resBase = some rb → s.queue.length < s.plat.nq →
    Admitted s ⟨.convert, idx, n, ab, rb, s.plat.grid .convert idx n.toNat⟩ →
    exec (.convert idx) s =
      .next { s with queue := s.queue ++ [⟨.convert, idx, n, ab, rb, s.plat.grid .convert idx n.toNat⟩] }

/-- CONVERT_BATCHED completes in the same way, with the two-dimensional grid (R163, R141, R88). -/
def Obligations.ConvertBatchedAppendsItsRecord : Prop :=
  ∀ (m : Nat) (s : State) (n ab rb : DWord),
    s.count = some n → s.accBase = some ab → s.resBase = some rb → s.queue.length < s.plat.nq →
    Admitted s ⟨.convertBatched, m, n, ab, rb, s.plat.grid .convertBatched m n.toNat⟩ →
    exec (.convertBatched m) s =
      .next { s with queue := s.queue ++ [⟨.convertBatched, m, n, ab, rb, s.plat.grid .convertBatched m n.toNat⟩] }

/-- With room in the queue a command is launched exactly when it is admitted, and is else refused: there is no third
outcome (R162, R163). That check 12 compares the two copies of `MT[0]` too, so that every launch, CONVERT 0 too, is refused
where only they differ, is the model's choice (log 27). -/
def Obligations.LaunchedExactlyWhenAdmitted : Prop :=
  ∀ (i : Instr) (s : State), s.queue.length < s.plat.nq →
    ((∃ t, exec i s = .next t) ↔
      ∃ o, s.operands = some o ∧ Admitted s (newCommand s.plat (opOf i) (indexOf i) o)) ∧
    ((¬∃ o, s.operands = some o ∧ Admitted s (newCommand s.plat (opOf i) (indexOf i) o)) →
      ∃ r, exec i s = .refused r)

/-- The reason of a refused launch is true of the state and the command (R162, R178). A table whose copies differ at `MT[0]`
only is a reason by the model's choice (log 27). -/
def Obligations.RefusalReasonIsTrue : Prop :=
  ∀ (i : Instr) (s : State) (r : Refusal), exec i s = .refused r → ReasonHolds s i r

/-- The frame of both commands: a launch, done or held, changes no byte of memory, no operand register, nothing of the
platform and nothing of the host's but the write that holds; the queue grows by at most one record, at its end. -/
def Obligations.LaunchChangesTheQueueOnly : Prop :=
  ∀ (i : Instr) (s t : State), exec i s = .next t →
    (∀ a, t.mem.read a = s.mem.read a) ∧ t.accBase = s.accBase ∧ t.resBase = s.resBase ∧ t.count = s.count ∧
    t.plat = s.plat ∧ t.unjoined = s.unjoined ∧ t.program = s.program ∧ t.lastRead = s.lastRead ∧
    t.agenda = s.agenda ∧ t.draws = s.draws ∧ t.turn = s.turn ∧
    ((t.queue = s.queue ∧ s.plat.nq ≤ s.queue.length ∧ t.heldWrite = some (encode i)) ∨
     (s.queue.length < s.plat.nq ∧ t.heldWrite = s.heldWrite ∧
       ∃ o, s.operands = some o ∧ t.queue = s.queue ++ [newCommand s.plat (opOf i) (indexOf i) o]))

/-- After a launch, done or held, `STATUS` reads 1 (R163). -/
def Obligations.StatusIsBusyAfterALaunch : Prop :=
  ∀ (i : Instr) (s t : State), exec i s = .next t → t.statusWord = 1#32

/-- While `NQ` commands are in flight a write to `CMD` holds, whatever its word: nothing is refused, lost or changed, and
the same word is still being written (R166, R180). -/
def Obligations.FullQueueHoldsEveryWord : Prop :=
  ∀ (s : State) rest v prog, HostIsNext s (.regWrite 0x18 4 v) rest prog → s.plat.nq ≤ s.queue.length →
    step s = .next { s with agenda := rest, program := prog, heldWrite := some (v.setWidth 32) }

/-- A held write comes again at the host's next move: it still holds while the queue is full (R166). -/
def Obligations.HeldWriteWaitsForRoom : Prop :=
  ∀ (s : State) rest w, s.agenda = .host :: rest → s.heldWrite = some w → s.plat.nq ≤ s.queue.length →
    step s = .next { s with agenda := rest }

/-! ### Lanes (41_single_converter.md, 42_batched_converter.md) -/

/-- LANE.S: a pending active lane of a CONVERT loads the 16 bytes at `ab + 16 g`, applies ELEMOP with the command's
index and stores 4 bytes at `rb + 4 g`; the lane leaves `PEND`, and every other byte, every register, the platform and the
host's side stay, a held write too (R126, R133, R166); of the model's own fields the draw counter alone moves (log 4). -/
def Obligations.SingleLaneConvertsItsGroup : Prop :=
  ∀ (s : State) rest pos c co, s.agenda = .lane pos co :: rest → s.queue[pos]? = some c → c.op = .convert →
    co ∈ c.pend → co.g < c.n.toNat / 4 → c.accExt.hi ≤ 2 ^ 64 → c.resExt.hi ≤ 2 ^ 64 → ∃ t, step s = .next t ∧
    (∀ j, j < 4 → t.mem.read (c.rb.toNat + 4 * co.g + j) =
      elemOp s.plat c.idx (s.mem.accRead (c.ab.toNat + 16 * co.g + 4 * j)) (Config.any8 (s.draws + j))) ∧
    (∀ a, ¬(c.rb.toNat + 4 * co.g ≤ a ∧ a < c.rb.toNat + 4 * co.g + 4) → t.mem.read a = s.mem.read a) ∧
    t.queue = s.queue.set pos { c with pend := c.pend.erase co } ∧
    t.accBase = s.accBase ∧ t.resBase = s.resBase ∧ t.count = s.count ∧ t.plat = s.plat ∧ t.agenda = rest ∧
    t.heldWrite = s.heldWrite ∧ t.program = s.program ∧ t.lastRead = s.lastRead ∧ t.unjoined = s.unjoined ∧
    t.turn = s.turn

/-- LANE.B: a pending active lane `(g, k)` of a CONVERT_BATCHED does the same at element offset `k × n`, with index `k`
(R142, R143), and leaves the same. -/
def Obligations.BatchedLaneConvertsItsGroup : Prop :=
  ∀ (s : State) rest pos c co, s.agenda = .lane pos co :: rest → s.queue[pos]? = some c → c.op = .convertBatched →
    co ∈ c.pend → co.g < c.n.toNat / 4 → co.k < c.idx → c.accExt.hi ≤ 2 ^ 64 → c.resExt.hi ≤ 2 ^ 64 →
    ∃ t, step s = .next t ∧
    (∀ j, j < 4 → t.mem.read (c.rb.toNat + co.k * c.n.toNat + 4 * co.g + j) =
      elemOp s.plat co.k (s.mem.accRead (c.ab.toNat + 4 * (co.k * c.n.toNat) + 16 * co.g + 4 * j))
        (Config.any8 (s.draws + j))) ∧
    (∀ a, ¬(c.rb.toNat + co.k * c.n.toNat + 4 * co.g ≤ a ∧ a < c.rb.toNat + co.k * c.n.toNat + 4 * co.g + 4) →
      t.mem.read a = s.mem.read a) ∧
    t.queue = s.queue.set pos { c with pend := c.pend.erase co } ∧
    t.accBase = s.accBase ∧ t.resBase = s.resBase ∧ t.count = s.count ∧ t.plat = s.plat ∧ t.agenda = rest ∧
    t.heldWrite = s.heldWrite ∧ t.program = s.program ∧ t.lastRead = s.lastRead ∧ t.unjoined = s.unjoined ∧
    t.turn = s.turn

/-- Byte j of an element in memory is bits 8j+7 .. 8j of its value: elements are little-endian (R51). -/
def Obligations.ElementBytesAreLittleEndian : Prop :=
  ∀ (m : Memory) (a j : Nat), j < 4 → (m.accRead a).extractLsb' (8 * j) 8 = m.read (a + j)

/-- An inert lane leaves `PEND` and does nothing else (R122, R177). -/
def Obligations.InertLaneDoesNothing : Prop :=
  ∀ (s : State) rest pos c co, s.agenda = .lane pos co :: rest → s.queue[pos]? = some c → co ∈ c.pend →
    c.n.toNat / 4 ≤ co.g →
    step s = .next { s with agenda := rest, queue := s.queue.set pos { c with pend := c.pend.erase co } }

/-- A lane steps once: after its step it is not pending, and every other lane of the command is pending as before
(R25, R126). -/
def Obligations.LaneStepsOnce : Prop :=
  ∀ (s t : State) rest pos c co, QueueOk s → s.agenda = .lane pos co :: rest → s.queue[pos]? = some c → co ∈ c.pend →
    step s = .next t → ∃ c', t.queue[pos]? = some c' ∧ co ∉ c'.pend ∧ (∀ x, x ≠ co → (x ∈ c'.pend ↔ x ∈ c.pend)) ∧
      c' = { c with pend := c'.pend }

/-- The side effects of a command's lanes: a lane changes bytes of its command's residue extent only (R129, R150). -/
def Obligations.LaneWritesItsResidueExtentOnly : Prop :=
  ∀ (s t : State) rest pos co a, QueueOk s → s.agenda = .lane pos co :: rest → step s = .next t →
    t.mem.read a ≠ s.mem.read a → ∃ c, s.queue[pos]? = some c ∧ co ∈ c.pend ∧ c.resExt.has a

/-- The active lanes of a command partition its residue extent: every byte is stored by one lane as one of its four, by
no other, and no lane stores a byte outside (R62). -/
def Obligations.LanesPartitionTheResidueExtent : Prop :=
  ∀ (p : Platform) (c : Command), c.n.toNat % 4 = 0 →
    (∀ a, c.resExt.has a → ∃ co ∈ p.grid c.op c.idx c.n.toNat, active co.g c.n.toNat = true ∧
      ∃ j, j < 4 ∧ c.storeAddr (c.laneOffset co) co.g + j = a) ∧
    (∀ co ∈ p.grid c.op c.idx c.n.toNat, ∀ co' ∈ p.grid c.op c.idx c.n.toNat, ∀ j j',
      active co.g c.n.toNat = true → active co'.g c.n.toNat = true → j < 4 → j' < 4 →
      c.storeAddr (c.laneOffset co) co.g + j = c.storeAddr (c.laneOffset co') co'.g + j' → co = co' ∧ j = j') ∧
    (∀ co ∈ p.grid c.op c.idx c.n.toNat, ∀ j, active co.g c.n.toNat = true → j < 4 →
      c.resExt.has (c.storeAddr (c.laneOffset co) co.g + j))

/-- `GX(n)`: a multiple of `B`, at least `n/4` and less than `n/4 + B`; so equal to `n/4` where `B` divides it, and 0 for
no element (R121). -/
def Obligations.GridWidthRoundsUpToBlocks : Prop :=
  ∀ (p : Platform) (n : Nat),
    p.gridWidth n % p.lanesPerBlock = 0 ∧ n / 4 ≤ p.gridWidth n ∧ p.gridWidth n < n / 4 + p.lanesPerBlock ∧
    (n / 4 % p.lanesPerBlock = 0 → p.gridWidth n = n / 4) ∧ p.gridWidth 0 = 0

/-! ### The reducer (40_reducer.md) -/

/-- MULHI is the floor of the exact product over 2^32 (R102). -/
def Obligations.MulhiIsTheFlooredQuotient : Prop :=
  ∀ x invp : Word, (mulhi x invp).toInt = x.toInt * invp.toInt / 2 ^ 32

/-- The remainder candidate is congruent to x and lies within one modulus of `[0, p)` (R104). -/
def Obligations.CandidateIsWithinOneModulus : Prop :=
  ∀ (x invp : Word) (p : BitVec 9), 2 ≤ p.toNat → p.toNat ≤ 256 → invp.toInt = (2 ^ 32 / p.toNat : Nat) - 1 →
    msub x (mulhi x invp) p % p.toNat = x.toInt % p.toNat ∧
    -(p.toNat : Int) < msub x (mulhi x invp) p ∧ msub x (mulhi x invp) p < 2 * p.toNat ∧
    (0 ≤ x.toInt → 0 ≤ msub x (mulhi x invp) p) ∧ (x.toInt < 0 → msub x (mulhi x invp) p ≤ p.toNat - 1)

/-- CORR subtracts p when `t ≥ p` and adds p when `t < 0` (R105), and so does the form that tests the corrected value
(R115), for every candidate whose difference fits 32 bits. -/
def Obligations.CorrectionIsBothTestsAtOnce : Prop :=
  ∀ (t : Int) (p : BitVec 9), -2 ^ 31 + (p.toNat : Int) ≤ t → t < 2 ^ 31 →
    corr t p = t - (if (p.toNat : Int) ≤ t then (p.toNat : Int) else 0) + (if t < 0 then (p.toNat : Int) else 0) ∧
    corr t p =
      (if t - (if (p.toNat : Int) ≤ t then (p.toNat : Int) else 0) < 0
       then t - (if (p.toNat : Int) ≤ t then (p.toNat : Int) else 0) + p.toNat
       else t - (if (p.toNat : Int) ≤ t then (p.toNat : Int) else 0))

/-- On the contract domain REDUCE is x mod p, for every int32 x (R108). -/
def Obligations.ReduceIsTheResidue : Prop :=
  ∀ (x invp : Word) (p : BitVec 9) (free : Byte), 2 ≤ p.toNat → p.toNat ≤ 256 →
    invp.toInt = (2 ^ 32 / p.toNat : Nat) - 1 →
    ((reduce x invp p free).toNat : Int) = x.toInt % p.toNat

/-- Outside the contract domain the result is the free byte, whatever it is (R109). -/
def Obligations.ReduceOutsideItsDomainIsFree : Prop :=
  ∀ (x invp : Word) (p : BitVec 9) (free : Byte),
    (p.toNat ≤ 1 ∨ 256 < p.toNat ∨ invp.toInt ≠ (2 ^ 32 / p.toNat : Nat) - 1) → reduce x invp p free = free

/-- TRUNC8 is the low byte, x mod 256, negative x included (R110). -/
def Obligations.TruncationIsModulo256 : Prop :=
  ∀ x : Word, (trunc8 x).toNat = x.toNat % 256 ∧ ((trunc8 x).toNat : Int) = x.toInt % 256

/-- TRUNC8 agrees with REDUCE at p = 256 (R111). -/
def Obligations.TruncationIsReductionBy256 : Prop :=
  ∀ (x : Word) (free : Byte), trunc8 x = reduce x 16777215#32 256#9 free

/-- ELEMOP with index 0 or a valid descriptor gives the residue modulo `P_i`; with an invalid descriptor it gives the
free byte (R116, R109). -/
def Obligations.ElementOperationGivesTheResidue : Prop :=
  ∀ (p : Platform) (i : Nat) (x : Word) (free : Byte),
    (p.ValidIndex i → IsResidue p i x (elemOp p i x free)) ∧
    (∀ d, p.lookup i = some d → ¬d.Valid → elemOp p i x free = free)

/-! ### Whole commands (R127, R128, R145, R147, R148) -/

/-- CONVERT converts its buffer, in every order of its lanes (R128, R127); with an unusable index it runs to its end all
the same (R190). -/
def Obligations.ConvertConvertsItsBuffer : Prop :=
  ∀ (s : State) idx o order rest, (Instr.convert idx).wf = true → QueueOk s → s.queue.length < s.plat.nq →
    s.operands = some o → Admitted s (newCommand s.plat .convert idx o) →
    order.Perm (s.plat.grid .convert idx o.n.toNat) →
    ConvertsItsBuffer s (.convert idx) (newCommand s.plat .convert idx o) order rest

/-- CONVERT_BATCHED converts its sub-buffers, sub-buffer k modulo `P_k`, in every order of its lanes (R145, R147); a
sub-buffer whose index is unusable does not affect the others (R149 (h)). -/
def Obligations.ConvertBatchedConvertsItsBuffers : Prop :=
  ∀ (s : State) m o order rest, (Instr.convertBatched m).wf = true → QueueOk s → s.queue.length < s.plat.nq →
    s.operands = some o → Admitted s (newCommand s.plat .convertBatched m o) →
    order.Perm (s.plat.grid .convertBatched m o.n.toNat) →
    ConvertsItsBuffer s (.convertBatched m) (newCommand s.plat .convertBatched m o) order rest

/-- The memory a command leaves does not depend on the order of its lanes (R12, R127). -/
def Obligations.LaneOrderIsUnobservable : Prop :=
  ∀ (s : State) (pos : Nat) (c : Command) (l l' : List Coord) (rest rest' : List Move) (t t' : State), QueueOk s → s.mem.wf = true → s.queue[pos]? = some c →
    (∀ co ∈ c.pend, s.plat.ValidIndex (c.laneIndex co)) → l.Perm c.pend → l'.Perm c.pend →
    Sys2Proof.core.run l.length { s with agenda := l.map (.lane pos) ++ rest } = .next t →
    Sys2Proof.core.run l'.length { s with agenda := l'.map (.lane pos) ++ rest' } = .next t' →
    t.mem = t'.mem

/-- When the last lane of a command in flight has stepped, under any interleaving, every element of its residue buffer is
the residue of the element in the same place (R128, R147, R60). -/
def Obligations.FinishedCommandHoldsItsResidues : Prop :=
  ∀ (s : State) (c : Command), QueueOk s → ResiduesStored s → c ∈ s.queue → c.pend = [] →
    ∀ e, e < c.elements → s.plat.ValidIndex (c.elementIndex e) →
      IsResidue s.plat (c.elementIndex e) (s.mem.accRead (c.ab.toNat + 4 * e)) (s.mem.read (c.rb.toNat + e))

/-- Slice k of a finished CONVERT_BATCHED equals, byte for byte, what a finished CONVERT with index k left for the same
elements, in whatever states the two are found (R148). -/
def Obligations.BatchedSliceEqualsSingle : Prop :=
  ∀ (s s' : State) (b c : Command) (k : Nat), QueueOk s → QueueOk s' → ResiduesStored s → ResiduesStored s' → b ∈ s.queue → c ∈ s'.queue →
    b.op = .convertBatched → c.op = .convert → b.pend = [] → c.pend = [] → c.idx = k → k < b.idx → c.n = b.n →
    s.plat.ValidIndex k → s'.plat.lookup k = s.plat.lookup k →
    (∀ j, j < b.n.toNat →
      s'.mem.accRead (c.ab.toNat + 4 * j) = s.mem.accRead (b.ab.toNat + 4 * (k * b.n.toNat + j))) →
    ∀ j, j < b.n.toNat → s.mem.read (b.rb.toNat + (k * b.n.toNat + j)) = s'.mem.read (c.rb.toNat + j)

/-! ### Retirement, host memory accesses, reset, the table -/

/-- RETIRE removes a finished record, oldest or not, and changes no byte and no register (R167); a record with lanes
pending is not removed. -/
def Obligations.RetireRemovesAFinishedRecord : Prop :=
  ∀ (s : State) rest pos c, s.agenda = .retire pos :: rest → s.queue[pos]? = some c →
    (c.pend = [] →
      step s = .next { s with agenda := rest, queue := s.queue.eraseIdx pos, unjoined := s.unjoined ++ [c] }) ∧
    (c.pend ≠ [] → step s = .next { s with agenda := rest })

/-- A host store to bytes it owns stores them and changes no other byte (R70, R170). -/
def Obligations.HostStoresToBytesItOwns : Prop :=
  ∀ (s : State) rest addr bytes prog, HostIsNext s (.memWrite addr bytes) rest prog →
    addr.toNat + bytes.length ≤ 2 ^ 64 →
    (∀ a, addr.toNat ≤ a → a < addr.toNat + bytes.length → ∀ c ∈ s.queue ++ s.unjoined,
      ¬c.accExt.has a ∧ ¬c.resExt.has a) → ∃ t, step s = .next t ∧
    (∀ j (h : j < bytes.length), t.mem.read (addr.toNat + j) = bytes[j]) ∧
    (∀ a, ¬(addr.toNat ≤ a ∧ a < addr.toNat + bytes.length) → t.mem.read a = s.mem.read a) ∧
    t.queue = s.queue ∧ t.accBase = s.accBase ∧ t.resBase = s.resBase ∧ t.count = s.count ∧ t.plat = s.plat

/-- A host store to a byte of an extent it does not own is refused (R70 (a)). -/
def Obligations.HostRaceIsRefused : Prop :=
  ∀ (s : State) rest addr bytes prog, HostIsNext s (.memWrite addr bytes) rest prog →
    addr.toNat + bytes.length ≤ 2 ^ 64 →
    (∃ a, addr.toNat ≤ a ∧ a < addr.toNat + bytes.length ∧ ∃ c ∈ s.queue ++ s.unjoined,
      c.accExt.has a ∨ c.resExt.has a) → step s = .refused .hostRace

/-- A host load gives, byte by byte, a free value for a residue byte it does not own and else the byte in memory, and
changes no byte (R70 (b)). -/
def Obligations.HostLoadsWhatIsFixed : Prop :=
  ∀ (s : State) rest addr len prog, HostIsNext s (.memRead addr len) rest prog → addr.toNat + len ≤ 2 ^ 64 →
    ∃ t bs, step s = .next t ∧ t.lastRead = .bytes bs ∧ bs.length = len ∧ t.mem = s.mem ∧ t.queue = s.queue ∧
      ∀ j (h : j < bs.length),
        ((∃ c ∈ s.queue ++ s.unjoined, c.resExt.has (addr.toNat + j)) → bs[j] = Config.any8 (s.draws + j)) ∧
        ((¬∃ c ∈ s.queue ++ s.unjoined, c.resExt.has (addr.toNat + j)) → bs[j] = s.mem.read (addr.toNat + j))

/-- RESET empties the queue, makes the operand registers unwritten and the residue bytes of the discarded commands free
values, and changes no other byte and nothing of the table (R200, R202, R203). The host owns the buffers of a discarded
command no sooner than those of a retired one (R70; the model's choice, log 8). -/
def Obligations.ResetDiscardsEveryCommand : Prop :=
  ∀ (s : State) rest, s.agenda = .reset :: rest → ∃ t, step s = .next t ∧
    t.queue = [] ∧ t.accBase = none ∧ t.resBase = none ∧ t.count = none ∧ t.statusWord = 0#32 ∧ t.plat = s.plat ∧
    t.unjoined = s.unjoined ++ s.queue ∧ (∀ a, (¬∃ c ∈ s.queue, c.resExt.has a) → t.mem.read a = s.mem.read a) ∧
    (∀ a, (∃ c ∈ s.queue, c.resExt.has a) → ∃ d, t.mem.read a = Config.any8 d)

/-- The state after reset, for the fields that the spec fixes (R40). -/
def Obligations.ResetStateIsTheSpecs : Prop :=
  State.reset.accBase = none ∧ State.reset.resBase = none ∧ State.reset.count = none ∧ State.reset.queue = [] ∧
  State.reset.statusWord = 0#32 ∧ State.reset.plat.nmod ≤ 65535

/-- The table may be rewritten only while no command is in flight (R34). A load writes the entry it names in the copy it
names, entry 0 and the host copy too; at or above `NMOD` there is no entry, and nothing is written; every other entry, both
its copies, the other copy of this one and everything else of the machine stay (log 9). Lanes read the device copy. -/
def Obligations.TableLoadsOnlyWhileIdle : Prop :=
  ∀ (s : State) rest copy i d, s.agenda = .loadEntry copy i d :: rest →
    (s.queue ≠ [] → step s = .refused .tableChangedInFlight) ∧
    (s.queue = [] → ∃ p, step s = .next { s with agenda := rest, plat := p } ∧
      sameParameters s.plat p ∧
      (∀ j, j ≠ i → (p.slot0 :: p.genuine)[j]? = (s.plat.slot0 :: s.plat.genuine)[j]?) ∧
      (∀ x, (s.plat.slot0 :: s.plat.genuine)[i]? = some x →
        (p.slot0 :: p.genuine)[i]? = some (if copy = .host then ⟨d, x.device⟩ else ⟨x.host, d⟩)) ∧
      (∀ j, j ≠ i → p.lookup j = s.plat.lookup j) ∧
      (copy = .device → 1 ≤ i → i < s.plat.nmod → p.lookup i = some d) ∧
      (copy = .host → p.lookup i = s.plat.lookup i))

/-! ### What holds of every step -/

/-- Every step keeps the memory's canonical form; and where the queue is as launches make it, no step lists an address
that does not exist (R50, R56). -/
def Obligations.StepKeepsMemoryForm : Prop :=
  ∀ s t : State, step s = .next t →
    (s.mem.wf = true → t.mem.wf = true) ∧ (QueueOk s → s.mem.inSpace = true → t.mem.inSpace = true)

/-- Every step keeps the queue's invariant: at most `NQ` records, each admitted, their extents pairwise disjoint, the two
table copies equal while any is in flight (R33, R34, R35, R64, R162; those of `MT[0]` too, log 27). -/
def Obligations.StepKeepsQueueInvariant : Prop :=
  ∀ s t : State, QueueOk s → step s = .next t → QueueOk t

/-- Under every interleaving of the host, the lanes, retirement, reset and table loads, what lanes of commands in flight
have stored stays the residue of their input (R63, R64, R128, R147). -/
def Obligations.StepKeepsStoredResidues : Prop :=
  ∀ s t : State, QueueOk s → ResiduesStored s → step s = .next t → ResiduesStored t

/-- The three invariants hold after reset. -/
def Obligations.ResetMeetsTheInvariants : Prop :=
  QueueOk State.reset ∧ MemoryOk State.reset ∧ ResiduesStored State.reset

/-- No step changes the parameters of a run, and none changes the table while a command is in flight (R34, R39). -/
def Obligations.StepKeepsTheConfiguration : Prop :=
  ∀ s t : State, step s = .next t → sameParameters s.plat t.plat ∧ (s.queue ≠ [] → t.plat = s.plat)

/-- Only a register write of the host and RESET change an operand register: no launch, lane or retirement does (R23). -/
def Obligations.OnlyWritesAndResetChangeOperands : Prop :=
  ∀ s t : State, step s = .next t → (t.accBase ≠ s.accBase ∨ t.resBase ≠ s.resBase ∨ t.count ≠ s.count) →
    (∃ rest, s.agenda = .reset :: rest) ∨
    (∃ offset v prog, s.heldWrite = none ∧ s.program = .regWrite offset 8 v :: prog)

/-- A byte that a step changes lies in the residue extent of a command in flight, or the host stores to it
(R23, R37, R129). -/
def Obligations.ChangedBytesAreResiduesOrHostStores : Prop :=
  ∀ (s t : State) a, QueueOk s → step s = .next t → t.mem.read a ≠ s.mem.read a →
    (∃ c ∈ s.queue, c.resExt.has a) ∨
    (∃ addr bytes prog, s.heldWrite = none ∧ s.program = .memWrite addr bytes :: prog ∧
      addr.toNat ≤ a ∧ a < addr.toNat + bytes.length)

/-- While a command is in flight no step changes a byte of its accumulator extent (R61, R70). -/
def Obligations.AccumulatorsAreImmutableInFlight : Prop :=
  ∀ (s t : State) (c : Command) (a : Nat), QueueOk s → c ∈ s.queue → c.accExt.has a → step s = .next t → t.mem.read a = s.mem.read a

/-- CORE raises nothing: where the queue is as launches make it, a step faults only on a host access that passes the end
of the address space (R175). -/
def Obligations.CoreRaisesNoException : Prop :=
  ∀ (s : State) f, QueueOk s → step s = .fault f → s.heldWrite = none ∧
    ((∃ addr bytes prog, s.program = .memWrite addr bytes :: prog ∧ 2 ^ 64 < addr.toNat + bytes.length) ∨
     (∃ addr len prog, s.program = .memRead addr len :: prog ∧ 2 ^ 64 < addr.toNat + len))

/-- Progress: a pending lane can always step, which pays one lane step of those owed, and a finished record can always
retire; every run comes to its end, with every command retired, no launch held and every JOIN done, or stops at a step that
is refused or faults; and every run that does not stop is weakly fair (R168). -/
def Obligations.LanesAndRetirementAlwaysProgress : Prop :=
  (∀ (s : State) rest pos c, QueueOk s → s.queue[pos]? = some c →
    (∀ co ∈ c.pend, s.agenda = .lane pos co :: rest →
      ∃ t, step s = .next t ∧ pendingLanes t + 1 = pendingLanes s ∧ t.queue.length = s.queue.length) ∧
    (c.pend = [] → s.agenda = .retire pos :: rest →
      ∃ t, step s = .next t ∧ pendingLanes t = pendingLanes s ∧ t.queue.length + 1 = s.queue.length)) ∧
  (∀ s : State, ComesToItsEnd s) ∧
  ∀ run : Nat → State, (∀ n, step (run n) = .next (run (n + 1))) → WeaklyFair run

/-- A command whose lanes are pending is discarded by RESET only: every other step leaves its record, with the operands
latched at its launch and none but its own lanes pending (R88, R168). -/
def Obligations.OnlyResetDiscardsACommand : Prop :=
  ∀ (s t : State) (c : Command), step s = .next t → c ∈ s.queue → c.pend ≠ [] →
    (∃ rest, s.agenda = .reset :: rest) ∨
    ∃ c' ∈ t.queue, c' = { c with pend := c'.pend } ∧ ∀ co ∈ c'.pend, co ∈ c.pend

/-- Where the agenda names no mover the step is a free choice among the enabled ones (R170): the host that has something
to do and does not hold, every pending lane, every finished record; no RESET and no table load. With none enabled the
machine is idle and keeps its state (R187). When patience has run out the step that is due is taken: the host's if it is
enabled, or one of the oldest record (R168; log 28). -/
def Obligations.FreeStepsAreTheEnabledOnes : Prop :=
  ∀ s : State, s.agenda = [] →
    ((enabledMoves s = [] ∧ step s = .next s) ∨
      ∃ mv ∈ enabledMoves s, step s = takeMove mv s.passTurn) ∧
    (s.turn.patience = 0 → s.turn.hostDue = true → Move.host ∈ enabledMoves s → step s = takeMove .host s.passTurn) ∧
    (s.turn.patience = 0 → s.turn.hostDue = false → s.queue ≠ [] →
      ∃ mv, step s = takeMove mv s.passTurn ∧ (mv = .retire 0 ∨ ∃ co, mv = .lane 0 co)) ∧
    (Move.host ∈ enabledMoves s ↔
      (s.heldWrite = none ∧ s.program ≠ []) ∨ (s.heldWrite ≠ none ∧ s.queue.length < s.plat.nq)) ∧
    (∀ pos co, Move.lane pos co ∈ enabledMoves s ↔ ∃ c, s.queue[pos]? = some c ∧ co ∈ c.pend) ∧
    (∀ pos, Move.retire pos ∈ enabledMoves s ↔ ∃ c, s.queue[pos]? = some c ∧ c.pend = []) ∧
    Move.reset ∉ enabledMoves s ∧ ∀ copy i d, Move.loadEntry copy i d ∉ enabledMoves s
end

