-- ==== Sys2Proof/Laws/Encoding.lean ====
section
/-! SUPPORT. The fields of a command word, and the word of a command, as numbers (30_encoding.md R81, R82, R83). -/

namespace Sys2Proof

theorem opcField_toNat (w : Word) : (opcField w).toNat = w.toNat / 2 ^ 24 := by
  have := w.isLt
  simp only [opcField, BitVec.extractLsb'_toNat, Nat.shiftRight_eq_div_pow]
  omega

theorem rsvField_toNat (w : Word) : (rsvField w).toNat = w.toNat / 2 ^ 16 % 256 := by
  simp [rsvField, BitVec.extractLsb'_toNat, Nat.shiftRight_eq_div_pow]

theorem idxField_toNat (w : Word) : (idxField w).toNat = w.toNat % 65536 := by
  simp [idxField, BitVec.extractLsb'_toNat]

theorem opcField_eq_iff (w : Word) (k : BitVec 8) : opcField w = k ↔ w.toNat / 2 ^ 24 = k.toNat := by
  rw [← opcField_toNat, BitVec.toNat_inj]

theorem rsvField_eq_iff (w : Word) (k : BitVec 8) : rsvField w = k ↔ w.toNat / 2 ^ 16 % 256 = k.toNat := by
  rw [← rsvField_toNat, BitVec.toNat_inj]

/-- `0x01000000 + idx` (R91). -/
theorem encode_convert_toNat {idx : Nat} (h : (Instr.convert idx).wf = true) :
    (encode (.convert idx)).toNat = 0x01000000 + idx := by
  simp only [Instr.wf, decide_eq_true_eq] at h
  simp only [encode, BitVec.toNat_ofNat]
  omega

/-- `0x02000000 + m` (R91). -/
theorem encode_convertBatched_toNat {m : Nat} (h : (Instr.convertBatched m).wf = true) :
    (encode (.convertBatched m)).toNat = 0x02000000 + m := by
  simp only [Instr.wf, decide_eq_true_eq] at h
  simp only [encode, BitVec.toNat_ofNat]
  omega

end Sys2Proof
end

