-- ==== Sys2Proof/Laws/Grid.lean ====
section
/-! SUPPORT. The lane grid: its members, each once (41_single_converter.md R121, 42_batched_converter.md R141). -/

namespace Sys2Proof.Machine

theorem mem_gridRow (w k : Nat) (co : Coord) : co ∈ gridRow w k ↔ co.g < w ∧ co.k = k := by
  rcases co with ⟨g, k'⟩
  simp [gridRow, eq_comm]

/-- The lanes of a command, as sets of coordinates. -/
theorem mem_grid (p : Platform) (op : Op) (idx n : Nat) (co : Coord) :
    co ∈ p.grid op idx n ↔ co.g < p.gridWidth n ∧
      (match op with | .convert => co.k = 0 | .convertBatched => co.k < idx) := by
  cases op with
  | convert => simp [Platform.grid, mem_gridRow]
  | convertBatched =>
    simp only [Platform.grid, List.mem_flatMap, List.mem_range, mem_gridRow]
    constructor
    · rintro ⟨k, h, h1, rfl⟩; exact ⟨h1, h⟩
    · rintro ⟨h, h'⟩; exact ⟨_, h', h, rfl⟩

theorem gridRow_nodup (w k : Nat) : (gridRow w k).Nodup :=
  List.Nodup.map (fun a b h => by simpa using h) List.nodup_range

/-- No lane stands twice in the grid. -/
theorem grid_nodup (p : Platform) (op : Op) (idx n : Nat) : (p.grid op idx n).Nodup := by
  cases op with
  | convert => exact gridRow_nodup _ _
  | convertBatched =>
    refine List.nodup_flatMap.mpr ⟨fun k _ => gridRow_nodup _ _, ?_⟩
    refine List.Nodup.pairwise_of_forall_ne List.nodup_range fun a _ b _ hab co h h' => ?_
    exact hab (((mem_gridRow _ _ _).mp h).2.symm.trans ((mem_gridRow _ _ _).mp h').2)

/-- The grid is wide enough: every active group has its lane (41_single_converter.md R121). -/
theorem le_gridWidth (p : Platform) (n : Nat) : n / 4 ≤ p.gridWidth n := by
  have hb : 0 < p.lanesPerBlock := Nat.succ_pos _
  unfold Platform.gridWidth
  have h := Nat.div_add_mod (n / 4 + (p.lanesPerBlock - 1)) p.lanesPerBlock
  have h' := Nat.mod_lt (n / 4 + (p.lanesPerBlock - 1)) hb
  omega

end Sys2Proof.Machine
end

