-- ==== Sys2Proof/Laws/Memory.lean ====
section
/-! SUPPORT. Memory: a read after a write, and the canonical form that every operation keeps. -/

namespace Sys2Proof.Machine.Memory

theorem read_erase (m : Memory) (a x : Nat) :
    (m.erase a).read x = if x = a then unlisted else m.read x := by
  induction m with
  | nil => simp [erase, read]
  | cons c m ih =>
    unfold erase at ih ⊢
    by_cases h : c.1 = a
    · simp only [List.filter_cons, h, bne_self_eq_false, Bool.false_eq_true, ite_false, ih]
      split
      · rfl
      · simp [read, h, Ne.symm ‹¬x = a›]
    · simp only [List.filter_cons, bne_iff_ne, ne_eq, h, not_false_eq_true, ite_true, read, ih]
      by_cases hx : x = a
      · simp [hx, h]
      · simp [hx]

theorem read_insert (m : Memory) (a x : Nat) (b : Byte) (h : x ≠ a ∨ m.read a = unlisted ∧ ∀ c ∈ m, c.1 ≠ a) :
    (m.insert a b).read x = if x = a then b else m.read x := by
  induction m with
  | nil => by_cases hx : x = a <;> simp [insert, read, hx, Ne.symm]
  | cons c m ih =>
    unfold insert
    split
    · by_cases hx : x = a
      · simp [read, hx]
      · simp [read, hx, Ne.symm hx]
    · rcases h with h | ⟨h, h'⟩
      · simp [read, ih (.inl h), h]
      · have hc : c.1 ≠ a := h' c (by simp)
        have := ih (.inr ⟨by simpa [read, hc] using h, fun d hd => h' d (by simp [hd])⟩)
        simp only [read, this]
        by_cases hx : x = a
        · simp [hx, hc]
        · simp [hx]

theorem mem_erase {m : Memory} {a : Nat} {c : Host.Cell} (h : c ∈ m.erase a) : c ∈ m ∧ c.1 ≠ a := by
  simpa [erase] using h

/-- A read after a write: the value written there, what was there before elsewhere. -/
theorem read_write (m : Memory) (a x : Nat) (b : Byte) :
    (m.write a b).read x = if x = a then b else m.read x := by
  unfold write
  split
  · next h => rw [read_erase, h]
  · rw [read_insert _ _ _ _ (.inr ⟨by simp [read_erase], fun c hc => (mem_erase hc).2⟩), read_erase]
    by_cases hx : x = a <;> simp [hx]

/-- A read after a string of bytes was stored. -/
theorem read_storeBytes (m : Memory) (a : Nat) (bs : List Byte) (x : Nat) :
    (m.storeBytes a bs).read x =
      if a ≤ x ∧ x < a + bs.length then bs.getD (x - a) 0#8 else m.read x := by
  induction bs generalizing m a with
  | nil => simp only [storeBytes, List.length_nil]; split <;> first | omega | rfl
  | cons b bs ih =>
    simp only [storeBytes, ih, read_write, List.length_cons]
    by_cases h : x = a
    · subst h; simp
    · by_cases h' : a ≤ x ∧ x < a + (bs.length + 1)
      · have h1 : a + 1 ≤ x ∧ x < a + 1 + bs.length := by omega
        rw [if_pos h1, if_pos h', show x - a = (x - (a + 1)) + 1 by omega]
        simp
      · have h1 : ¬(a + 1 ≤ x ∧ x < a + 1 + bs.length) := by omega
        rw [if_neg h1, if_neg h', if_neg h]

/-- The stored string reads back. -/
theorem read_storeBytes_in (m : Memory) (a : Nat) (bs : List Byte) (j : Nat) (h : j < bs.length) :
    (m.storeBytes a bs).read (a + j) = bs[j] := by
  rw [read_storeBytes, if_pos (by omega), show a + j - a = j by omega]
  simp [List.getD_eq_getElem?_getD, h]

/-- Nothing else changes. -/
theorem read_storeBytes_out (m : Memory) (a : Nat) (bs : List Byte) (x : Nat)
    (h : ¬(a ≤ x ∧ x < a + bs.length)) : (m.storeBytes a bs).read x = m.read x := by
  rw [read_storeBytes, if_neg h]

theorem wf_cons {c : Host.Cell} {m : Memory} :
    Memory.wf (c :: m) = true ↔ c.2 ≠ unlisted ∧ (∀ d ∈ m, c.1 < d.1) ∧ m.wf = true := by
  rcases c with ⟨a, b⟩
  simp only [wf, Bool.and_eq_true, bne_iff_ne, ne_eq, List.all_eq_true, decide_eq_true_eq, and_assoc]

theorem wf_erase {m : Memory} (a : Nat) (h : m.wf = true) : (m.erase a).wf = true := by
  induction m with
  | nil => rfl
  | cons c m ih =>
    obtain ⟨h1, h2, h3⟩ := wf_cons.mp h
    unfold erase at ih ⊢
    simp only [List.filter_cons]
    split
    · exact wf_cons.mpr ⟨h1, fun d hd => h2 d (List.mem_filter.mp hd).1, ih h3⟩
    · exact ih h3

theorem mem_insert {m : Memory} {a : Nat} {b : Byte} {d : Host.Cell} (h : d ∈ m.insert a b) :
    d = (a, b) ∨ d ∈ m := by
  induction m with
  | nil => simpa [insert] using h
  | cons c m ih =>
    unfold insert at h
    split at h
    · simpa using h
    · rcases List.mem_cons.mp h with h | h
      · exact .inr (by simp [h])
      · rcases ih h with h | h
        · exact .inl h
        · exact .inr (by simp [h])

theorem wf_insert {m : Memory} {a : Nat} {b : Byte} (hb : b ≠ unlisted) (h : m.wf = true)
    (ha : ∀ c ∈ m, c.1 ≠ a) : (m.insert a b).wf = true := by
  induction m with
  | nil => simpa [insert, wf] using hb
  | cons c m ih =>
    obtain ⟨h1, h2, h3⟩ := wf_cons.mp h
    unfold insert
    split
    · next hlt =>
      refine wf_cons.mpr ⟨hb, fun d hd => ?_, h⟩
      rcases List.mem_cons.mp hd with hd | hd
      · exact hd ▸ hlt
      · exact Nat.lt_trans hlt (h2 d hd)
    · next hge =>
      refine wf_cons.mpr ⟨h1, fun d hd => ?_, ih h3 fun d hd => ha d (by simp [hd])⟩
      rcases mem_insert hd with hd | hd
      · have := ha c (by simp)
        have h5 : d.1 = a := by rw [hd]
        omega
      · exact h2 d hd

/-- A write keeps the canonical form. -/
theorem wf_write {m : Memory} (a : Nat) (b : Byte) (h : m.wf = true) : (m.write a b).wf = true := by
  unfold write
  split
  · exact wf_erase a h
  · exact wf_insert ‹_› (wf_erase a h) fun c hc => (mem_erase hc).2

/-- Storing bytes keeps the canonical form. -/
theorem wf_storeBytes {m : Memory} (a : Nat) (bs : List Byte) (h : m.wf = true) :
    (m.storeBytes a bs).wf = true := by
  induction bs generalizing m a with
  | nil => exact h
  | cons b bs ih => exact ih _ (wf_write a b h)

theorem inSpace_iff {m : Memory} : m.inSpace = true ↔ ∀ c ∈ m, c.1 < addrSpace := by
  simp [inSpace]

/-- A write at an address that exists lists no other. -/
theorem inSpace_write {m : Memory} {a : Nat} (b : Byte) (ha : a < addrSpace) (h : m.inSpace = true) :
    (m.write a b).inSpace = true := by
  rw [inSpace_iff] at *
  intro c hc
  unfold write at hc
  split at hc
  · exact h c (mem_erase hc).1
  · rcases mem_insert hc with hc | hc
    · rw [hc]; exact ha
    · exact h c (mem_erase hc).1

/-- Storing bytes at addresses that exist lists no other. -/
theorem inSpace_storeBytes {m : Memory} {a : Nat} {bs : List Byte} (ha : a + bs.length ≤ addrSpace)
    (h : m.inSpace = true) : (m.storeBytes a bs).inSpace = true := by
  induction bs generalizing m a with
  | nil => exact h
  | cons b bs ih =>
    simp only [List.length_cons] at ha
    exact ih (by omega) (inSpace_write b (by omega) h)

/-- Two memories in canonical form that read alike are the same data: no memory has two forms. -/
theorem eq_of_read {m m' : Memory} (h : m.wf = true) (h' : m'.wf = true) (hr : ∀ a, m.read a = m'.read a) :
    m = m' := by
  have absent : ∀ {k : Memory} {a : Nat}, (∀ d ∈ k, a < d.1) → k.read a = unlisted := by
    intro k a hk
    induction k with
    | nil => rfl
    | cons c k ih =>
      have := hk c (by simp)
      simp only [read]
      rw [if_neg (by omega)]
      exact ih fun d hd => hk d (by simp [hd])
  induction m generalizing m' with
  | nil =>
    cases m' with
    | nil => rfl
    | cons c m' =>
      have := hr c.1
      simp only [read, ite_true] at this
      exact absurd this.symm (wf_cons.mp h').1
  | cons c m ih =>
    obtain ⟨h1, h2, h3⟩ := wf_cons.mp h
    cases m' with
    | nil =>
      have := hr c.1
      simp only [read, ite_true] at this
      exact absurd this h1
    | cons c' m' =>
      obtain ⟨h1', h2', h3'⟩ := wf_cons.mp h'
      have hlow : ∀ a, a < c.1 → Memory.read (c :: m) a = unlisted := fun a ha => absent fun d hd => by
        rcases List.mem_cons.mp hd with hd | hd
        · rw [hd]; exact ha
        · exact Nat.lt_trans ha (h2 d hd)
      have hlow' : ∀ a, a < c'.1 → Memory.read (c' :: m') a = unlisted := fun a ha => absent fun d hd => by
        rcases List.mem_cons.mp hd with hd | hd
        · rw [hd]; exact ha
        · exact Nat.lt_trans ha (h2' d hd)
      have hk : c.1 = c'.1 := by
        rcases Nat.lt_trichotomy c.1 c'.1 with hl | hl | hl
        · have := hr c.1
          rw [hlow' _ hl] at this
          simp only [read, ite_true] at this
          exact absurd this h1
        · exact hl
        · have := hr c'.1
          rw [hlow _ hl] at this
          simp only [read, ite_true] at this
          exact absurd this.symm h1'
      have hv : c.2 = c'.2 := by simpa [read, hk] using hr c.1
      have hc : c = c' := Prod.ext hk hv
      subst hc
      congr 1
      refine ih h3 h3' fun a => ?_
      by_cases ha : c.1 = a
      · subst ha; rw [absent h2, absent h2']
      · simpa [read, ha] using hr a

end Sys2Proof.Machine.Memory
end

