-- ==== Sys2Proof/Laws/Ranges.lean ====
section
/-! SUPPORT. Address ranges: meeting, and being covered by the accessible regions. -/

namespace Sys2Proof.Machine

/-- Two ranges meet exactly when they share an address. -/
theorem meets_iff (e f : Extent) : e.meets f = true ↔ ∃ a, e.has a ∧ f.has a := by
  simp only [Extent.meets, decide_eq_true_eq, Extent.has]
  constructor
  · intro h; exact ⟨max e.lo f.lo, by omega, by omega⟩
  · rintro ⟨a, h, h'⟩; omega

theorem not_meets_iff (e f : Extent) : e.meets f = false ↔ ∀ a, ¬(e.has a ∧ f.has a) := by
  rw [← Bool.not_eq_true, meets_iff, not_exists]

theorem mem_cut (r : Region) (g : Extent) (a : Nat) :
    (∃ e ∈ r.cut g, e.has a) ↔ g.has a ∧ ¬(r.base ≤ a ∧ a < r.base + r.size) := by
  simp only [Region.cut, List.mem_filter, List.mem_cons, List.not_mem_nil, or_false, decide_eq_true_eq, Extent.has]
  constructor
  · rintro ⟨e, ⟨rfl | rfl, _⟩, h⟩ <;> simp only at h <;> omega
  · rintro ⟨h, h'⟩
    by_cases hb : a < r.base
    · exact ⟨_, ⟨.inl rfl, by simp only; omega⟩, by simp only; omega⟩
    · exact ⟨_, ⟨.inr rfl, by simp only; omega⟩, by simp only; omega⟩

theorem mem_uncovered (rs : List Region) (gs : List Extent) (a : Nat) :
    (∃ e ∈ uncovered rs gs, e.has a) ↔ (∃ e ∈ gs, e.has a) ∧ ∀ r ∈ rs, ¬(r.base ≤ a ∧ a < r.base + r.size) := by
  induction rs generalizing gs with
  | nil => simp [uncovered]
  | cons r rs ih =>
    have := ih (gs.flatMap r.cut)
    simp only [uncovered, List.foldl_cons, List.mem_cons, forall_eq_or_imp] at this ⊢
    rw [this, ← and_assoc]
    refine and_congr_left fun _ => ?_
    constructor
    · rintro ⟨e, he, ha⟩
      obtain ⟨g, hg, he⟩ := List.mem_flatMap.mp he
      have := (mem_cut r g a).mp ⟨e, he, ha⟩
      exact ⟨⟨g, hg, this.1⟩, this.2⟩
    · rintro ⟨⟨g, hg, ha⟩, hr⟩
      obtain ⟨e, he, ha⟩ := (mem_cut r g a).mpr ⟨ha, hr⟩
      exact ⟨e, List.mem_flatMap.mpr ⟨g, hg, he⟩, ha⟩

/-- The accessibility check looks at every byte of the range (20_memory.md R55). -/
theorem accessible_iff (p : Platform) (e : Extent) :
    p.accessible e = true ↔ ∀ a, e.has a → p.AccessibleByte a := by
  have hu : (uncovered p.regions [e]).all (fun g => decide (g.hi ≤ g.lo)) = true ↔
      ¬∃ a, ∃ g ∈ uncovered p.regions [e], g.has a := by
    simp only [List.all_eq_true, decide_eq_true_eq, Extent.has]
    constructor
    · rintro h ⟨a, g, hg, ha⟩; have := h g hg; omega
    · intro h g hg
      by_contra hlt
      exact h ⟨g.lo, g, hg, by omega, by omega⟩
  simp only [Platform.accessible, Bool.and_eq_true, Bool.not_eq_true', hu, mem_uncovered, not_meets_iff,
    Platform.AccessibleByte]
  simp only [List.mem_singleton, exists_eq_left, not_exists, not_and, not_forall]
  constructor
  · rintro ⟨h1, h2⟩ a ha
    obtain ⟨r, hr, h⟩ := h1 a ha
    exact ⟨⟨r, hr, by simpa using h⟩, fun hw hw' => h2 a ⟨hw, hw'⟩ ha.1 ha.2⟩
  · intro h
    refine ⟨fun a ha => ?_, fun a hw h1 h2 => (h a ⟨h1, h2⟩).2 hw.1 hw.2⟩
    obtain ⟨r, hr, h⟩ := (h a ha).1
    exact ⟨r, hr, by simpa using h⟩

/-- The check of two commands' extents looks at every byte (20_memory.md R64). -/
theorem apart_iff (c d : Command) : c.apart d = true ↔ c.Disjoint d := by
  simp only [Command.apart, Bool.and_eq_true, Bool.not_eq_true', not_meets_iff, Command.Disjoint]
  constructor
  · rintro ⟨⟨⟨h1, h2⟩, h3⟩, h4⟩ a ⟨h | h, h' | h'⟩
    exacts [h1 a ⟨h, h'⟩, h2 a ⟨h, h'⟩, h3 a ⟨h, h'⟩, h4 a ⟨h, h'⟩]
  · intro h
    exact ⟨⟨⟨fun a ⟨x, y⟩ => h a ⟨.inl x, .inl y⟩, fun a ⟨x, y⟩ => h a ⟨.inl x, .inr y⟩⟩,
      fun a ⟨x, y⟩ => h a ⟨.inr x, .inl y⟩⟩, fun a ⟨x, y⟩ => h a ⟨.inr x, .inr y⟩⟩

theorem tableConsistent_iff (p : Platform) :
    p.tableConsistent = true ↔ ∀ t ∈ p.slot0 :: p.genuine, t.host = t.device := by
  simp [Platform.tableConsistent]

end Sys2Proof.Machine
end

