-- ==== Sys2Proof/Laws/State.lean ====
section
/-! SUPPORT. One lemma per field per update of the state. -/

namespace Sys2Proof.Machine

section hold
variable (s : State) (w : Word)
@[simp] theorem hold_accBase : (s.hold w).accBase = s.accBase := rfl
@[simp] theorem hold_resBase : (s.hold w).resBase = s.resBase := rfl
@[simp] theorem hold_count : (s.hold w).count = s.count := rfl
@[simp] theorem hold_queue : (s.hold w).queue = s.queue := rfl
@[simp] theorem hold_mem : (s.hold w).mem = s.mem := rfl
@[simp] theorem hold_plat : (s.hold w).plat = s.plat := rfl
@[simp] theorem hold_unjoined : (s.hold w).unjoined = s.unjoined := rfl
@[simp] theorem hold_heldWrite : (s.hold w).heldWrite = some w := rfl
@[simp] theorem hold_program : (s.hold w).program = s.program := rfl
@[simp] theorem hold_lastRead : (s.hold w).lastRead = s.lastRead := rfl
@[simp] theorem hold_agenda : (s.hold w).agenda = s.agenda := rfl
@[simp] theorem hold_turn : (s.hold w).turn = s.turn := rfl
@[simp] theorem hold_draws : (s.hold w).draws = s.draws := rfl
end hold

section enqueue
variable (s : State) (c : Command)
@[simp] theorem enqueue_accBase : (s.enqueue c).accBase = s.accBase := rfl
@[simp] theorem enqueue_resBase : (s.enqueue c).resBase = s.resBase := rfl
@[simp] theorem enqueue_count : (s.enqueue c).count = s.count := rfl
@[simp] theorem enqueue_queue : (s.enqueue c).queue = s.queue ++ [c] := rfl
@[simp] theorem enqueue_mem : (s.enqueue c).mem = s.mem := rfl
@[simp] theorem enqueue_plat : (s.enqueue c).plat = s.plat := rfl
@[simp] theorem enqueue_unjoined : (s.enqueue c).unjoined = s.unjoined := rfl
@[simp] theorem enqueue_heldWrite : (s.enqueue c).heldWrite = s.heldWrite := rfl
@[simp] theorem enqueue_program : (s.enqueue c).program = s.program := rfl
@[simp] theorem enqueue_lastRead : (s.enqueue c).lastRead = s.lastRead := rfl
@[simp] theorem enqueue_agenda : (s.enqueue c).agenda = s.agenda := rfl
@[simp] theorem enqueue_turn : (s.enqueue c).turn = s.turn := rfl
@[simp] theorem enqueue_draws : (s.enqueue c).draws = s.draws := rfl
end enqueue

section dropLane
variable (s : State) (pos : Nat) (c : Command) (co : Coord)
@[simp] theorem dropLane_accBase : (s.dropLane pos c co).accBase = s.accBase := rfl
@[simp] theorem dropLane_resBase : (s.dropLane pos c co).resBase = s.resBase := rfl
@[simp] theorem dropLane_count : (s.dropLane pos c co).count = s.count := rfl
@[simp] theorem dropLane_queue :
    (s.dropLane pos c co).queue = s.queue.set pos { c with pend := c.pend.erase co } := rfl
@[simp] theorem dropLane_mem : (s.dropLane pos c co).mem = s.mem := rfl
@[simp] theorem dropLane_plat : (s.dropLane pos c co).plat = s.plat := rfl
@[simp] theorem dropLane_unjoined : (s.dropLane pos c co).unjoined = s.unjoined := rfl
@[simp] theorem dropLane_heldWrite : (s.dropLane pos c co).heldWrite = s.heldWrite := rfl
@[simp] theorem dropLane_program : (s.dropLane pos c co).program = s.program := rfl
@[simp] theorem dropLane_lastRead : (s.dropLane pos c co).lastRead = s.lastRead := rfl
@[simp] theorem dropLane_agenda : (s.dropLane pos c co).agenda = s.agenda := rfl
@[simp] theorem dropLane_turn : (s.dropLane pos c co).turn = s.turn := rfl
@[simp] theorem dropLane_draws : (s.dropLane pos c co).draws = s.draws := rfl
end dropLane

section retire
variable (s : State) (pos : Nat) (c : Command)
@[simp] theorem retire_accBase : (s.retire pos c).accBase = s.accBase := rfl
@[simp] theorem retire_resBase : (s.retire pos c).resBase = s.resBase := rfl
@[simp] theorem retire_count : (s.retire pos c).count = s.count := rfl
@[simp] theorem retire_queue : (s.retire pos c).queue = s.queue.eraseIdx pos := rfl
@[simp] theorem retire_mem : (s.retire pos c).mem = s.mem := rfl
@[simp] theorem retire_plat : (s.retire pos c).plat = s.plat := rfl
@[simp] theorem retire_unjoined : (s.retire pos c).unjoined = s.unjoined ++ [c] := rfl
@[simp] theorem retire_heldWrite : (s.retire pos c).heldWrite = s.heldWrite := rfl
@[simp] theorem retire_program : (s.retire pos c).program = s.program := rfl
@[simp] theorem retire_lastRead : (s.retire pos c).lastRead = s.lastRead := rfl
@[simp] theorem retire_agenda : (s.retire pos c).agenda = s.agenda := rfl
@[simp] theorem retire_turn : (s.retire pos c).turn = s.turn := rfl
@[simp] theorem retire_draws : (s.retire pos c).draws = s.draws := rfl
end retire

section readStatus
variable (s : State)
@[simp] theorem readStatus_accBase : (readStatus s).accBase = s.accBase := rfl
@[simp] theorem readStatus_resBase : (readStatus s).resBase = s.resBase := rfl
@[simp] theorem readStatus_count : (readStatus s).count = s.count := rfl
@[simp] theorem readStatus_queue : (readStatus s).queue = s.queue := rfl
@[simp] theorem readStatus_mem : (readStatus s).mem = s.mem := rfl
@[simp] theorem readStatus_plat : (readStatus s).plat = s.plat := rfl
@[simp] theorem readStatus_unjoined : (readStatus s).unjoined = if s.busy then s.unjoined else [] := rfl
@[simp] theorem readStatus_heldWrite : (readStatus s).heldWrite = s.heldWrite := rfl
@[simp] theorem readStatus_program : (readStatus s).program = s.program := rfl
@[simp] theorem readStatus_lastRead : (readStatus s).lastRead = .word s.statusWord := rfl
@[simp] theorem readStatus_agenda : (readStatus s).agenda = s.agenda := rfl
@[simp] theorem readStatus_turn : (readStatus s).turn = s.turn := rfl
@[simp] theorem readStatus_draws : (readStatus s).draws = s.draws := rfl
end readStatus

section joinRound
variable (s : State)
@[simp] theorem joinRound_accBase : (joinRound s).accBase = s.accBase := rfl
@[simp] theorem joinRound_resBase : (joinRound s).resBase = s.resBase := rfl
@[simp] theorem joinRound_count : (joinRound s).count = s.count := rfl
@[simp] theorem joinRound_queue : (joinRound s).queue = s.queue := rfl
@[simp] theorem joinRound_mem : (joinRound s).mem = s.mem := rfl
@[simp] theorem joinRound_plat : (joinRound s).plat = s.plat := rfl
@[simp] theorem joinRound_unjoined : (joinRound s).unjoined = if s.busy then s.unjoined else [] := rfl
@[simp] theorem joinRound_heldWrite : (joinRound s).heldWrite = s.heldWrite := rfl
@[simp] theorem joinRound_lastRead : (joinRound s).lastRead = .word s.statusWord := rfl
@[simp] theorem joinRound_agenda : (joinRound s).agenda = s.agenda := rfl
@[simp] theorem joinRound_turn : (joinRound s).turn = s.turn := rfl
@[simp] theorem joinRound_draws : (joinRound s).draws = s.draws := rfl
end joinRound

section readOperand
variable (r : Option DWord) (s : State)
@[simp] theorem readOperand_accBase : (readOperand r s).accBase = s.accBase := by cases r <;> rfl
@[simp] theorem readOperand_resBase : (readOperand r s).resBase = s.resBase := by cases r <;> rfl
@[simp] theorem readOperand_count : (readOperand r s).count = s.count := by cases r <;> rfl
@[simp] theorem readOperand_queue : (readOperand r s).queue = s.queue := by cases r <;> rfl
@[simp] theorem readOperand_mem : (readOperand r s).mem = s.mem := by cases r <;> rfl
@[simp] theorem readOperand_plat : (readOperand r s).plat = s.plat := by cases r <;> rfl
@[simp] theorem readOperand_unjoined : (readOperand r s).unjoined = s.unjoined := by cases r <;> rfl
@[simp] theorem readOperand_heldWrite : (readOperand r s).heldWrite = s.heldWrite := by cases r <;> rfl
@[simp] theorem readOperand_program : (readOperand r s).program = s.program := by cases r <;> rfl
@[simp] theorem readOperand_agenda : (readOperand r s).agenda = s.agenda := by cases r <;> rfl
@[simp] theorem readOperand_turn : (readOperand r s).turn = s.turn := by cases r <;> rfl
end readOperand

section resetMove
variable (s : State)
@[simp] theorem resetMove_accBase : (resetMove s).accBase = none := rfl
@[simp] theorem resetMove_resBase : (resetMove s).resBase = none := rfl
@[simp] theorem resetMove_count : (resetMove s).count = none := rfl
@[simp] theorem resetMove_queue : (resetMove s).queue = [] := rfl
@[simp] theorem resetMove_mem : (resetMove s).mem = scramble s.mem s.draws s.queue := rfl
@[simp] theorem resetMove_plat : (resetMove s).plat = s.plat := rfl
@[simp] theorem resetMove_unjoined : (resetMove s).unjoined = s.unjoined ++ s.queue := rfl
@[simp] theorem resetMove_heldWrite : (resetMove s).heldWrite = s.heldWrite := rfl
@[simp] theorem resetMove_program : (resetMove s).program = s.program := rfl
@[simp] theorem resetMove_lastRead : (resetMove s).lastRead = s.lastRead := rfl
@[simp] theorem resetMove_agenda : (resetMove s).agenda = s.agenda := rfl
@[simp] theorem resetMove_turn : (resetMove s).turn = s.turn := rfl
end resetMove

section passTurn
variable (s : State)
@[simp] theorem passTurn_accBase : s.passTurn.accBase = s.accBase := rfl
@[simp] theorem passTurn_resBase : s.passTurn.resBase = s.resBase := rfl
@[simp] theorem passTurn_count : s.passTurn.count = s.count := rfl
@[simp] theorem passTurn_queue : s.passTurn.queue = s.queue := rfl
@[simp] theorem passTurn_mem : s.passTurn.mem = s.mem := rfl
@[simp] theorem passTurn_plat : s.passTurn.plat = s.plat := rfl
@[simp] theorem passTurn_unjoined : s.passTurn.unjoined = s.unjoined := rfl
@[simp] theorem passTurn_heldWrite : s.passTurn.heldWrite = s.heldWrite := rfl
@[simp] theorem passTurn_program : s.passTurn.program = s.program := rfl
@[simp] theorem passTurn_lastRead : s.passTurn.lastRead = s.lastRead := rfl
@[simp] theorem passTurn_agenda : s.passTurn.agenda = s.agenda := rfl
@[simp] theorem passTurn_draws : s.passTurn.draws = s.draws + 1 := rfl
end passTurn

end Sys2Proof.Machine
end

