-- ==== Sys2Proof/Laws/Launch.lean ====
section
/-! SUPPORT. The launch: when the checks pass, and everything a launch can answer. -/

namespace Sys2Proof.Machine

@[simp] theorem firstFailure_cons_none (b : Bool) (r : Refusal) (l : List (Bool × Refusal)) :
    firstFailure ((b, r) :: l) = none ↔ b = true ∧ firstFailure l = none := by
  cases b <;> simp [firstFailure]

@[simp] theorem firstFailure_nil : firstFailure [] = none := rfl

theorem indexCheck_iff (p : Platform) (c : Command) :
    (indexCheck p c).1 = true ↔ (c.op = .convert → c.idx < p.nmod) ∧ (c.op = .convertBatched → c.idx ≤ p.nmod) := by
  unfold indexCheck
  cases h : c.op <;> simp

/-- The checks pass exactly when the launch is admitted (43_control.md R162). -/
theorem admitted_iff (s : State) (c : Command) : firstFailure (admissionChecks s c) = none ↔ Admitted s c := by
  have hi := indexCheck_iff s.plat c
  rw [admissionChecks, show indexCheck s.plat c = ((indexCheck s.plat c).1, (indexCheck s.plat c).2) from rfl]
  simp only [firstFailure_cons_none, firstFailure_nil, and_true, hi, decide_eq_true_eq, Bool.and_eq_true, accessible_iff,
    Bool.not_eq_true', not_meets_iff, List.all_eq_true, apart_iff, tableConsistent_iff]
  constructor
  · rintro ⟨h1, ⟨h2, h3⟩, ⟨h4, h5⟩, ⟨h6, h7⟩, ⟨h8, h9⟩, h10, h11, h12⟩
    exact ⟨h1, h2, h3, h4, h5, h6, h7, h8, h9, h10, h11, h12⟩
  · rintro ⟨h1, h2, h3, h4, h5, h6, h7, h8, h9, h10, h11, h12⟩
    exact ⟨h1, ⟨h2, h3⟩, ⟨h4, h5⟩, ⟨h6, h7⟩, ⟨h8, h9⟩, h10, h11, h12⟩

/-- Everything a launch can answer (43_control.md R163): it holds, it is refused, or the record is appended. -/
theorem launch_cases (w : Word) (op : Op) (idx : Nat) (s : State) :
    (s.queueFull = true ∧ launch w op idx s = .next (s.hold w)) ∨
    (s.queueFull = false ∧ ∃ r, launch w op idx s = .refused r) ∨
    (s.queueFull = false ∧ ∃ o, s.operands = some o ∧ Admitted s (newCommand s.plat op idx o) ∧
      launch w op idx s = .next (s.enqueue (newCommand s.plat op idx o))) := by
  unfold launch
  cases hq : s.queueFull
  · simp only [Bool.false_eq_true, ite_false, false_and, false_or, true_and]
    cases ho : s.operands with
    | none => exact .inl ⟨_, rfl⟩
    | some o =>
      cases hf : firstFailure (admissionChecks s (newCommand s.plat op idx o)) with
      | some r => exact .inl ⟨r, by simp [hf]⟩
      | none => exact .inr ⟨o, rfl, (admitted_iff _ _).mp hf, by simp [hf]⟩
  · exact .inl ⟨rfl, by simp⟩

/-- A launch that is admitted appends its record. -/
theorem launch_admitted {w : Word} {op : Op} {idx : Nat} {s : State} {o : LaunchOperands} (hq : s.queueFull = false)
    (ho : s.operands = some o) (ha : Admitted s (newCommand s.plat op idx o)) :
    launch w op idx s = .next (s.enqueue (newCommand s.plat op idx o)) := by
  simp [launch, hq, ho, (admitted_iff _ _).mpr ha]

end Sys2Proof.Machine
end

