-- ==== Sys2Proof/Laws/Moves.lean ====
section
/-! SUPPORT. One step by its mover: which meaning it calls, and when it cannot fault. -/

namespace Sys2Proof.Machine

/-- The agenda's first move is the step (43_control.md R170). -/
theorem step_of_agenda {s : State} {mv : Move} {rest : List Move} (h : s.agenda = mv :: rest) :
    step s = takeMove mv { s with agenda := rest } := by
  simp [step, advance, h]

/-- The step of a host that is next and does not hold is its next action. -/
theorem step_of_hostIsNext {s : State} {a : HostAction} {rest : List Move} {prog : List HostAction}
    (h : HostIsNext s a rest prog) : step s = hostAction a { s with agenda := rest, program := prog } := by
  obtain ⟨h1, h2, h3⟩ := h
  rw [step_of_agenda h1]
  simp [takeMove, hostStep, h2, h3]

/-- Both commands are one launch, of their own word, operation and index (43_control.md R163). -/
theorem exec_eq_launch (i : Instr) (s : State) : exec i s = launch (encode i) (opOf i) (indexOf i) s := by
  cases i <;> rfl

/-- One more step of a run. -/
theorem run_succ (k : Nat) (s : State) : Sys2Proof.core.run (k + 1) s =
    match step s with
    | .next t => Sys2Proof.core.run k t
    | .fault r => .fault r
    | .refused r => .refused r := by
  have h : Sys2Proof.core.step s = step s := rfl
  simp only [Host.Core.run, h]
  cases step s <;> rfl

/-- The enabled steps of CORE are those of the records, each under its place in `Q`. -/
theorem mem_coreMoves (s : State) (mv : Move) :
    mv ∈ coreMoves s ↔ ∃ pos c, s.queue[pos]? = some c ∧ mv ∈ recordMoves pos c := by
  simp only [coreMoves, List.mem_flatten, List.mem_mapIdx]
  constructor
  · rintro ⟨l, ⟨i, hi, rfl⟩, h⟩
    exact ⟨i, _, List.getElem?_eq_getElem hi, h⟩
  · rintro ⟨i, c, hc, h⟩
    obtain ⟨hi, rfl⟩ := List.getElem?_eq_some_iff.mp hc
    exact ⟨_, ⟨i, hi, rfl⟩, h⟩

/-- The step that is due is an enabled one. -/
theorem dueMove_mem {s : State} {mv : Move} (h : dueMove s = some mv) : mv ∈ enabledMoves s := by
  unfold dueMove at h
  split at h
  · exact List.mem_append_left _ (List.mem_of_mem_head? h)
  · exact List.mem_append_right _ (List.mem_of_mem_head? h)

/-- The mover that the agenda does not name is an enabled one. -/
theorem freeMove_mem {s : State} {mv : Move} (h : freeMove s = some mv) : mv ∈ enabledMoves s := by
  unfold freeMove at h
  split at h
  · rcases Option.or_eq_some_iff.mp h with h | ⟨_, h⟩
    exacts [dueMove_mem h, List.mem_of_getElem? h]
  · exact List.mem_of_getElem? h

/-- Nobody moves exactly when nothing is enabled. -/
theorem freeMove_eq_none_iff (s : State) : freeMove s = none ↔ enabledMoves s = [] := by
  constructor
  · intro h
    by_contra hne
    have hlt := Nat.mod_lt (Config.pick s.draws) (List.length_pos_of_ne_nil hne)
    unfold freeMove pickMove at h
    split at h
    · simp [List.getElem?_eq_getElem hlt] at h
    · simp [List.getElem?_eq_getElem hlt] at h
  · intro h
    cases hf : freeMove s with
    | none => rfl
    | some mv => exact absurd (freeMove_mem hf) (by simp [h])

theorem queueFull_iff (s : State) : s.queueFull = true ↔ s.plat.nq ≤ s.queue.length := by simp [State.queueFull]

theorem queueFull_eq_false {s : State} (h : s.queue.length < s.plat.nq) : s.queueFull = false := by
  rw [← Bool.not_eq_true, queueFull_iff]
  omega

theorem statusWord_eq (s : State) : s.statusWord = if s.queue = [] then 0#32 else 1#32 := by
  unfold State.statusWord State.busy
  cases s.queue <;> simp

/-- The offsets and widths that reach no register (10_state.md R29). -/
theorem regAt_eq_none_iff (offset width : Nat) : regAt offset width = none ↔
    (offset, width) ∉ [(0x00, 8), (0x08, 8), (0x10, 8), (0x18, 4), (0x1C, 4)] := by
  unfold regAt
  simp only [List.mem_cons, Prod.mk.injEq, List.not_mem_nil, or_false]
  split_ifs <;> simp_all

/-- A host store races exactly when it touches a byte of an extent that the host does not own (20_memory.md R70). -/
theorem hostRaces_iff (s : State) (e : Extent) : s.hostRaces e = true ↔
    ∃ a, e.has a ∧ ∃ c ∈ s.queue ++ s.unjoined, c.accExt.has a ∨ c.resExt.has a := by
  simp only [State.hostRaces, State.owned, List.any_eq_true, Bool.or_eq_true, meets_iff]
  constructor
  · rintro ⟨c, hc, ⟨a, h1, h2⟩ | ⟨a, h1, h2⟩⟩
    exacts [⟨a, h1, c, hc, .inl h2⟩, ⟨a, h1, c, hc, .inr h2⟩]
  · rintro ⟨a, h1, c, hc, h2 | h2⟩
    exacts [⟨c, hc, .inl ⟨a, h1, h2⟩⟩, ⟨c, hc, .inr ⟨a, h1, h2⟩⟩]

/-- The residue bytes that a host read does not rely on (20_memory.md R70). -/
theorem inFlightResidue_iff (s : State) (a : Nat) :
    s.inFlightResidue a = true ↔ ∃ c ∈ s.queue ++ s.unjoined, c.resExt.has a := by
  simp only [State.inFlightResidue, State.owned, List.any_eq_true, decide_eq_true_eq]

/-- The failed check that a refusal names is one of the checks. -/
theorem mem_of_firstFailure {l : List (Bool × Refusal)} {r : Refusal} (h : firstFailure l = some r) : (false, r) ∈ l := by
  induction l with
  | nil => cases h
  | cons x l ih =>
    obtain ⟨b, r'⟩ := x
    cases b
    · simp only [firstFailure, Bool.false_eq_true, ite_false, Option.some.injEq] at h
      simp [h]
    · simp only [firstFailure, ite_true] at h
      simp [ih h]

/-- A table load keeps the size of the table. -/
@[simp] theorem setEntry_nmod (p : Platform) (copy : TableCopy) (d : Descriptor) (i : Nat) :
    (p.setEntry copy d i).nmod = p.nmod := by
  cases i <;> simp [Platform.setEntry, Platform.nmod]

/-- An element's four bytes decide it. -/
theorem accRead_congr {m m' : Memory} {a : Nat} (h : ∀ j, j < 4 → m'.read (a + j) = m.read (a + j)) :
    m'.accRead a = m.accRead a := by
  unfold Memory.accRead
  rw [show a = a + 0 from rfl, h 0 (by omega), h 1 (by omega), h 2 (by omega), h 3 (by omega)]

/-! ### Lanes and their command's extents -/

/-- An active lane's group ends within the command's elements (20_memory.md R62). -/
theorem lane_within_elements {p : Platform} {c : Command} {co : Coord} (hn : c.n.toNat % 4 = 0)
    (hg : co ∈ p.grid c.op c.idx c.n.toNat) (ha : active co.g c.n.toNat = true) :
    c.laneOffset co + 4 * co.g + 4 ≤ c.elements := by
  rw [mem_grid] at hg
  simp only [active, decide_eq_true_eq] at ha
  unfold Command.laneOffset Command.elements Command.subBuffers Command.subOffset
  cases h : c.op <;> simp only [h] at hg ⊢
  · omega
  · have : (co.k + 1) * c.n.toNat ≤ c.idx * c.n.toNat := Nat.mul_le_mul_right _ hg.2
    rw [Nat.add_mul] at this
    omega

/-- An active lane loads bytes of the accumulator extent only (20_memory.md R56). -/
theorem load_in_accExt {p : Platform} {c : Command} {co : Coord} {j : Nat} (hn : c.n.toNat % 4 = 0)
    (hg : co ∈ p.grid c.op c.idx c.n.toNat) (ha : active co.g c.n.toNat = true) (hj : j < 16) :
    c.accExt.has (c.loadAddr (c.laneOffset co) co.g + j) := by
  have := lane_within_elements hn hg ha
  simp only [Extent.has, Command.accExt, Command.loadAddr]
  omega

/-- An active lane stores bytes of the residue extent only (20_memory.md R56). -/
theorem store_in_resExt {p : Platform} {c : Command} {co : Coord} {j : Nat} (hn : c.n.toNat % 4 = 0)
    (hg : co ∈ p.grid c.op c.idx c.n.toNat) (ha : active co.g c.n.toNat = true) (hj : j < 4) :
    c.resExt.has (c.storeAddr (c.laneOffset co) co.g + j) := by
  have := lane_within_elements hn hg ha
  simp only [Extent.has, Command.resExt, Command.storeAddr]
  omega

/-! ### Records -/

/-- What is in flight depends on the queue and the platform only. -/
theorem QueueOk.of_same {s t : State} (h : QueueOk s) (hq : t.queue = s.queue) (hp : t.plat = s.plat) : QueueOk t :=
  ⟨by rw [hq, hp]; exact h.depth, by rw [hq, hp]; exact h.records, by rw [hq]; exact h.disjoint,
    by rw [hq, hp]; exact h.consistent⟩

theorem Admitted.of_same {s t : State} {c : Command} (h : Admitted s c) (hq : t.queue = s.queue)
    (hp : t.plat = s.plat) : Admitted t c :=
  ⟨h.granularity, hp ▸ h.indexInRange, hp ▸ h.numModuliInRange, h.accAligned, h.resAligned, h.accFits, h.resFits,
    hp ▸ h.accAccessible, hp ▸ h.resAccessible, h.notInPlace, hq ▸ h.notOverlapping, hp ▸ h.tableConsistent⟩

/-- An admitted launch makes a record as records are (43_control.md R162, R163). -/
theorem commandOk_of_admitted {s : State} {op : Op} {idx : Nat} {o : LaunchOperands}
    (h : Admitted s (newCommand s.plat op idx o)) : CommandOk s.plat (newCommand s.plat op idx o) :=
  ⟨h.granularity, h.indexInRange, h.numModuliInRange, h.accAligned, h.resAligned, h.accFits, h.resFits,
    h.accAccessible, h.resAccessible, h.notInPlace, fun _ hx => hx, grid_nodup _ _ _ _⟩

/-- A lane step leaves the record as records are. -/
theorem CommandOk.erase_pend {p : Platform} {c : Command} (h : CommandOk p c) (co : Coord) :
    CommandOk p { c with pend := c.pend.erase co } :=
  ⟨h.granularity, h.indexInRange, h.numModuliInRange, h.accAligned, h.resAligned, h.accFits, h.resFits,
    h.accAccessible, h.resAccessible, h.notInPlace, fun x hx => h.pendInGrid x (List.mem_of_mem_erase hx),
    h.pendNodup.erase _⟩

theorem Command.Disjoint.symm {c d : Command} (h : c.Disjoint d) : d.Disjoint c := fun a ⟨x, y⟩ => h a ⟨y, x⟩

/-- Two different records of the queue share no byte. -/
theorem QueueOk.disjoint_of_ne {s : State} (h : QueueOk s) {c d : Command} (hc : c ∈ s.queue) (hd : d ∈ s.queue)
    (hne : c ≠ d) : c.Disjoint d := by
  obtain ⟨i, hi, rfl⟩ := List.getElem_of_mem hc
  obtain ⟨j, hj, rfl⟩ := List.getElem_of_mem hd
  have hp := List.pairwise_iff_getElem.mp h.disjoint
  rcases Nat.lt_trichotomy i j with hl | rfl | hl
  · exact hp i j hi hj hl
  · exact absurd rfl hne
  · exact (hp j i hj hi hl).symm

/-- With a valid table every element of a record has a usable index (42_batched_converter.md R147). -/
theorem validIndex_of_tableValid {p : Platform} {c : Command} {e : Nat} (ht : p.TableValid) (hc : CommandOk p c)
    (he : e < c.elements) : p.ValidIndex (c.elementIndex e) := by
  refine ht _ ?_
  unfold Command.elements Command.subBuffers at he
  unfold Command.elementIndex
  cases h : c.op <;> simp only [h] at he ⊢
  · exact hc.indexInRange h
  · exact Nat.lt_of_lt_of_le (Nat.div_lt_of_lt_mul (by rwa [Nat.mul_comm])) (hc.numModuliInRange h)

/-! ### What a launch and a lane cannot do -/

theorem launch_ne_fault (w : Word) (op : Op) (idx : Nat) (s : State) (f : Fault) : launch w op idx s ≠ .fault f := by
  rcases launch_cases w op idx s with ⟨_, h⟩ | ⟨_, r, h⟩ | ⟨_, o, _, _, h⟩ <;> rw [h] <;> simp

theorem writeCmd_ne_fault (w : Word) (s : State) (f : Fault) : writeCmd w s ≠ .fault f := by
  unfold writeCmd
  split
  · rw [exec_eq_launch]
    exact launch_ne_fault _ _ _ _ _
  · split <;> simp

/-- The step of a pending lane that is active, where its two accesses stay in the address space. -/
theorem laneMove_active {s : State} {pos : Nat} {c : Command} {co : Coord} (hc : s.queue[pos]? = some c)
    (hco : co ∈ c.pend) (hact : active co.g c.n.toNat = true)
    (hl : c.loadAddr (c.laneOffset co) co.g + 16 ≤ addrSpace)
    (hs : c.storeAddr (c.laneOffset co) co.g + 4 ≤ addrSpace) :
    laneMove pos co s = .next { s.dropLane pos c co with
      mem := vst4 s.mem (c.storeAddr (c.laneOffset co) co.g)
        (elem4 s.plat (c.laneIndex co) (vld4 s.mem (c.loadAddr (c.laneOffset co) co.g)) s.draws)
      draws := s.draws + 4 } := by
  have hin : ¬(addrSpace < c.loadAddr (c.laneOffset co) co.g + 16 ∨ addrSpace < c.storeAddr (c.laneOffset co) co.g + 4) := by
    omega
  simp only [laneMove, laneStep, laneS, laneB, hc, hco, ite_true]
  cases ho : c.op <;> simp only [Command.laneOffset, Command.laneIndex, ho] at hin ⊢ <;>
    simp only [hact, groupStep, if_neg hin, ite_true] <;> rfl

end Sys2Proof.Machine
end

