-- ==== Sys2Proof/Laws/Steps.lean ====
section
/-! SUPPORT. Everything a step can do to the queue, to memory and to the platform, said once. -/

namespace Sys2Proof.Machine

/-- What a step that answers a next state did (43_control.md R170). -/
inductive Effect (s : State) (t : State) : Prop where
  /-- Register accesses, reads, JOIN, a held launch, an idle step: none of the three changes. -/
  | quiet (hq : t.queue = s.queue) (hm : t.mem = s.mem) (hp : t.plat = s.plat)
  /-- A launch appends an admitted record (R163). -/
  | launched (op : Op) (idx : Nat) (o : LaunchOperands) (hroom : s.queueFull = false)
      (ha : Admitted s (newCommand s.plat op idx o))
      (hq : t.queue = s.queue ++ [newCommand s.plat op idx o]) (hm : t.mem = s.mem) (hp : t.plat = s.plat)
  /-- A host store outside the extents it does not own (20_memory.md R70). -/
  | hostStored (a : Nat) (bs : List Byte) (hfit : a + bs.length ≤ addrSpace)
      (hfree : s.hostRaces ⟨a, a + bs.length⟩ = false)
      (hq : t.queue = s.queue) (hm : t.mem = s.mem.storeBytes a bs) (hp : t.plat = s.plat)
  /-- An inert lane (41_single_converter.md R122). -/
  | inert (pos : Nat) (c : Command) (co : Coord) (hc : s.queue[pos]? = some c) (hco : co ∈ c.pend)
      (hact : active co.g c.n.toNat = false)
      (hq : t.queue = s.queue.set pos { c with pend := c.pend.erase co }) (hm : t.mem = s.mem) (hp : t.plat = s.plat)
  /-- An active lane (41_single_converter.md R126, 42_batched_converter.md R143). -/
  | lane (pos : Nat) (c : Command) (co : Coord) (d : Nat) (hc : s.queue[pos]? = some c) (hco : co ∈ c.pend)
      (hact : active co.g c.n.toNat = true)
      (hq : t.queue = s.queue.set pos { c with pend := c.pend.erase co })
      (hload : c.loadAddr (c.laneOffset co) co.g + 16 ≤ addrSpace)
      (hstore : c.storeAddr (c.laneOffset co) co.g + 4 ≤ addrSpace)
      (hm : t.mem = vst4 s.mem (c.storeAddr (c.laneOffset co) co.g)
        (elem4 s.plat (c.laneIndex co) (vld4 s.mem (c.loadAddr (c.laneOffset co) co.g)) d))
      (hp : t.plat = s.plat)
  /-- A finished record is removed (R167). -/
  | retired (pos : Nat) (c : Command) (hc : s.queue[pos]? = some c) (hpend : c.pend = [])
      (hq : t.queue = s.queue.eraseIdx pos) (hm : t.mem = s.mem) (hp : t.plat = s.plat)
  /-- RESET (70_reset_and_hazards.md R200). -/
  | reset (d : Nat) (hq : t.queue = []) (hm : t.mem = scramble s.mem d s.queue) (hp : t.plat = s.plat)
  /-- A table load while nothing is in flight (10_state.md R34). -/
  | loaded (copy : TableCopy) (i : Nat) (d : Descriptor) (hidle : s.queue = [])
      (hq : t.queue = s.queue) (hm : t.mem = s.mem) (hp : t.plat = s.plat.setEntry copy d i)

theorem launch_effect {w : Word} {op : Op} {idx : Nat} {s t : State} (h : launch w op idx s = .next t) : Effect s t := by
  rcases launch_cases w op idx s with ⟨_, h'⟩ | ⟨_, r, h'⟩ | ⟨hq, o, _, ha, h'⟩ <;> rw [h'] at h
  · cases h; exact .quiet rfl rfl rfl
  · cases h
  · cases h; exact .launched op idx o hq ha rfl rfl rfl

theorem exec_effect {i : Instr} {s t : State} (h : exec i s = .next t) : Effect s t := by
  cases i <;> exact launch_effect h

theorem writeCmd_effect {w : Word} {s t : State} (h : writeCmd w s = .next t) : Effect s t := by
  unfold writeCmd at h
  split at h
  · exact exec_effect h
  · split at h
    · cases h; exact .quiet rfl rfl rfl
    · cases h

theorem hostAction_effect {a : HostAction} {s t : State} (h : hostAction a s = .next t) : Effect s t := by
  cases a with
  | regWrite off width v =>
    simp only [hostAction, regWrite] at h
    split at h
    · cases h; exact .quiet rfl rfl rfl
    · cases h; exact .quiet rfl rfl rfl
    · cases h; exact .quiet rfl rfl rfl
    · exact writeCmd_effect h
    · cases h; exact .quiet rfl rfl rfl
    · cases h
  | regRead off width =>
    simp only [hostAction, regRead] at h
    split at h <;> cases h <;> exact .quiet (by simp) (by simp) (by simp)
  | join => cases h; exact .quiet rfl rfl rfl
  | memWrite addr bytes =>
    simp only [hostAction, memWrite] at h
    split at h
    · cases h
    · split at h
      · cases h
      · cases h
        exact .hostStored addr.toNat bytes (by omega) (by simpa using ‹¬s.hostRaces _ = true›) rfl rfl rfl
  | memRead addr len =>
    simp only [hostAction, memRead] at h
    split at h
    · cases h
    · cases h; exact .quiet rfl rfl rfl

/-- The queue, memory and platform that a step sees are those of the state, whatever was taken off the host's side. -/
theorem Effect.of_same {s s' t : State} (hq : s'.queue = s.queue) (hm : s'.mem = s.mem) (hp : s'.plat = s.plat)
    (hu : s'.unjoined = s.unjoined) (h : Effect s' t) : Effect s t := by
  cases h with
  | quiet q m p => exact .quiet (q.trans hq) (m.trans hm) (p.trans hp)
  | launched op idx o hr ha q m p =>
    refine .launched op idx o (by simpa [State.queueFull, hq, hp] using hr) ?_ (by rw [q, hq, hp]) (m.trans hm)
      (p.trans hp)
    rw [hp] at ha
    exact ⟨ha.granularity, hp ▸ ha.indexInRange, hp ▸ ha.numModuliInRange, ha.accAligned, ha.resAligned, ha.accFits,
      ha.resFits, hp ▸ ha.accAccessible, hp ▸ ha.resAccessible, ha.notInPlace, hq ▸ ha.notOverlapping,
      hp ▸ ha.tableConsistent⟩
  | hostStored a bs hf hr q m p =>
    refine .hostStored a bs hf ?_ (q.trans hq) (by rw [m, hm]) (p.trans hp)
    simpa [State.hostRaces, State.owned, hq, hu] using hr
  | inert pos c co hc hco hact q m p => exact .inert pos c co (hq ▸ hc) hco hact (by rw [q, hq]) (m.trans hm) (p.trans hp)
  | lane pos c co d hc hco hact q hl hs m p =>
    exact .lane pos c co d (hq ▸ hc) hco hact (by rw [q, hq]) hl hs (by rw [m, hm, hp]) (p.trans hp)
  | retired pos c hc hpend q m p => exact .retired pos c (hq ▸ hc) hpend (by rw [q, hq]) (m.trans hm) (p.trans hp)
  | reset d q m p => exact .reset d q (by rw [m, hm, hq]) (p.trans hp)
  | loaded copy i d hi q m p => exact .loaded copy i d (hq ▸ hi) (q.trans hq) (m.trans hm) (by rw [p, hp])

theorem hostStep_effect {s t : State} (h : hostStep s = .next t) : Effect s t := by
  unfold hostStep at h
  split at h
  · refine Effect.of_same ?_ ?_ ?_ ?_ (writeCmd_effect h) <;> rfl
  · split at h
    · cases h; exact .quiet rfl rfl rfl
    · refine Effect.of_same ?_ ?_ ?_ ?_ (hostAction_effect h) <;> rfl

/-- A lane step of either command: LANE.S and LANE.B differ in the index and the offset only. -/
theorem laneStep_eq (pos : Nat) (c : Command) (co : Coord) (s : State) :
    laneStep pos c co s =
      if active co.g c.n.toNat then
        groupStep (c.laneIndex co) (c.loadAddr (c.laneOffset co) co.g) (c.storeAddr (c.laneOffset co) co.g)
          (s.dropLane pos c co)
      else .next (s.dropLane pos c co) := by
  unfold laneStep Command.laneIndex Command.laneOffset
  cases c.op <;> rfl

theorem laneStep_effect {pos : Nat} {c : Command} {co : Coord} {s t : State} (hc : s.queue[pos]? = some c)
    (hco : co ∈ c.pend) (h : laneStep pos c co s = .next t) : Effect s t := by
  rw [laneStep_eq] at h
  split at h
  · unfold groupStep at h
    split at h
    · cases h
    · cases h
      exact .lane pos c co s.draws hc hco ‹_› rfl (by omega) (by omega) rfl rfl
  · cases h
    exact .inert pos c co hc hco (by simpa using ‹¬active _ _ = true›) rfl rfl rfl

/-- What one move of one agent can do. -/
theorem takeMove_effect {mv : Move} {s t : State} (h : takeMove mv s = .next t) : Effect s t := by
  cases mv with
  | host => exact hostStep_effect h
  | lane pos co =>
    simp only [takeMove, laneMove] at h
    split at h
    · next c hc =>
      split at h
      · exact laneStep_effect hc ‹_› h
      · cases h; exact .quiet rfl rfl rfl
    · cases h; exact .quiet rfl rfl rfl
  | retire pos =>
    simp only [takeMove, retireMove] at h
    split at h
    · next c hc =>
      split at h
      · cases h; exact .retired pos c hc ‹_› rfl rfl rfl
      · cases h; exact .quiet rfl rfl rfl
    · cases h; exact .quiet rfl rfl rfl
  | reset => cases h; exact .reset s.draws rfl rfl rfl
  | loadEntry copy i d =>
    simp only [takeMove, loadMove] at h
    cases hb : s.busy <;> simp only [hb, ite_true, Bool.false_eq_true, ite_false] at h
    · cases h
      exact .loaded copy i d (by simpa [State.busy] using hb) rfl rfl rfl
    · cases h

/-- A step is idle, or one move of one agent, from a state that differs in the agenda, the draw counter and the turn
only. -/
theorem step_cases (s : State) :
    step s = .next s ∨ ∃ mv a d u, step s = takeMove mv { s with agenda := a, draws := d, turn := u } := by
  unfold step advance
  split
  · next mv rest _ => exact .inr ⟨mv, rest, s.draws, s.turn, rfl⟩
  · split
    · next mv _ => exact .inr ⟨mv, s.agenda, s.passTurn.draws, s.passTurn.turn, rfl⟩
    · exact .inl rfl

/-- What a step can do to the queue, to memory and to the platform. -/
theorem step_effect {s t : State} (h : step s = .next t) : Effect s t := by
  rcases step_cases s with h' | ⟨mv, a, d, u, h'⟩ <;> rw [h'] at h
  · cases h; exact .quiet rfl rfl rfl
  · refine Effect.of_same ?_ ?_ ?_ ?_ (takeMove_effect h) <;> rfl

/-- The four bytes an active lane stores. -/
@[simp] theorem length_vld4 (m : Memory) (a : Nat) : (vld4 m a).length = 4 := by simp [vld4]

@[simp] theorem length_elem4 (p : Platform) (i : Nat) (v : List Word) (d : Nat) : (elem4 p i v d).length = v.length := by
  simp [elem4]

/-- Byte j of what an active lane stores: ELEMOP of element j (41_single_converter.md R123 to R125). -/
theorem read_vst4_in (p : Platform) (m m' : Memory) (i la sa d j : Nat) (h : j < 4) :
    (vst4 m sa (elem4 p i (vld4 m' la) d)).read (sa + j) =
      elemOp p i (m'.accRead (la + 4 * j)) (Config.any8 (d + j)) := by
  rw [vst4, Memory.read_storeBytes_in _ _ _ _ (by simpa using h)]
  simp [elem4, vld4]

/-- An active lane changes no other byte. -/
theorem read_vst4_out (p : Platform) (m m' : Memory) (i la sa d x : Nat) (h : ¬(sa ≤ x ∧ x < sa + 4)) :
    (vst4 m sa (elem4 p i (vld4 m' la) d)).read x = m.read x := by
  rw [vst4, Memory.read_storeBytes_out _ _ _ _ (by simpa using h)]

@[simp] theorem length_freeBytes (d len : Nat) : (freeBytes d len).length = len := by simp [freeBytes]

/-- RESET changes bytes of the discarded commands' residue extents only (70_reset_and_hazards.md R203). -/
theorem read_scramble_out (m : Memory) (d : Nat) (cs : List Command) (x : Nat) (h : ∀ c ∈ cs, ¬c.resExt.has x) :
    (scramble m d cs).read x = m.read x := by
  induction cs generalizing m d with
  | nil => rfl
  | cons c cs ih =>
    rw [scramble, ih _ _ fun c' hc' => h c' (by simp [hc'])]
    exact Memory.read_storeBytes_out _ _ _ _ (by simpa [Extent.has, Command.resExt] using h c (by simp))

theorem wf_scramble {m : Memory} (d : Nat) (cs : List Command) (h : m.wf = true) : (scramble m d cs).wf = true := by
  induction cs generalizing m d with
  | nil => exact h
  | cons c cs ih => exact ih _ (Memory.wf_storeBytes _ _ h)

theorem inSpace_scramble {m : Memory} (d : Nat) (cs : List Command) (hc : ∀ c ∈ cs, c.resExt.hi ≤ addrSpace)
    (h : m.inSpace = true) : (scramble m d cs).inSpace = true := by
  induction cs generalizing m d with
  | nil => exact h
  | cons c cs ih =>
    refine ih _ (fun c' hc' => hc c' (by simp [hc'])) (Memory.inSpace_storeBytes ?_ h)
    simpa [Command.resExt] using hc c (by simp)

end Sys2Proof.Machine
end

