-- ==== Sys2Proof/Laws/HostSide.lean ====
section
/-! SUPPORT. What a move leaves of the host's side: its program, a held write, the agenda and the turn. -/

namespace Sys2Proof.Machine

/-- A launch leaves the host's side alone, and with room in the queue it holds nothing (43_control.md R163). -/
theorem exec_hostSide {i : Instr} {s t : State} (h : exec i s = .next t) :
    t.program = s.program ∧ t.agenda = s.agenda ∧ t.turn = s.turn ∧
      (s.queueFull = false → t.heldWrite = s.heldWrite) := by
  rw [exec_eq_launch] at h
  rcases launch_cases (encode i) (opOf i) (indexOf i) s with ⟨hq, h'⟩ | ⟨_, r, h'⟩ | ⟨_, o, _, _, h'⟩ <;>
    rw [h'] at h <;> cases h
  · exact ⟨rfl, rfl, rfl, fun hf => by simp [hf] at hq⟩
  · exact ⟨rfl, rfl, rfl, fun _ => rfl⟩

theorem writeCmd_hostSide {w : Word} {s t : State} (h : writeCmd w s = .next t) :
    t.program = s.program ∧ t.agenda = s.agenda ∧ t.turn = s.turn ∧
      (s.queueFull = false → t.heldWrite = s.heldWrite) := by
  unfold writeCmd at h
  split at h
  · exact exec_hostSide h
  · split at h
    · next hq =>
      cases h
      exact ⟨rfl, rfl, rfl, fun hf => by simp [hf] at hq⟩
    · cases h

/-- An action of the host names no mover. -/
theorem hostAction_keeps {a : HostAction} {s t : State} (h : hostAction a s = .next t) :
    t.agenda = s.agenda ∧ t.turn = s.turn := by
  cases a with
  | regWrite offset width v =>
    simp only [hostAction, regWrite] at h
    split at h
    case h_4 => exact ⟨(writeCmd_hostSide h).2.1, (writeCmd_hostSide h).2.2.1⟩
    all_goals cases h <;> exact ⟨rfl, rfl⟩
  | regRead offset width =>
    have hr : ∀ r, (readOperand r s).agenda = s.agenda ∧ (readOperand r s).turn = s.turn := fun r => by
      cases r <;> exact ⟨rfl, rfl⟩
    simp only [hostAction, regRead] at h
    split at h <;> cases h <;> first | exact hr _ | exact ⟨rfl, rfl⟩
  | join => cases h; exact ⟨rfl, rfl⟩
  | memWrite addr bytes =>
    simp only [hostAction, memWrite] at h
    split at h
    · cases h
    · split at h <;> cases h
      exact ⟨rfl, rfl⟩
  | memRead addr len =>
    simp only [hostAction, memRead] at h
    split at h <;> cases h
    exact ⟨rfl, rfl⟩

theorem hostStep_keeps {s t : State} (h : hostStep s = .next t) : t.agenda = s.agenda ∧ t.turn = s.turn := by
  unfold hostStep at h
  split at h
  · exact ⟨(writeCmd_hostSide h).2.1, (writeCmd_hostSide h).2.2.1⟩
  · split at h
    · cases h
      exact ⟨rfl, rfl⟩
    · have := hostAction_keeps h
      exact ⟨this.1, this.2⟩

/-- No move but the host's touches the host's side. -/
theorem takeMove_hostSide {mv : Move} {s t : State} (hmv : mv ≠ .host) (h : takeMove mv s = .next t) :
    t.program = s.program ∧ t.heldWrite = s.heldWrite ∧ t.agenda = s.agenda ∧ t.turn = s.turn := by
  cases mv with
  | host => exact absurd rfl hmv
  | lane pos co =>
    simp only [takeMove, laneMove] at h
    split at h
    · split at h
      · rw [laneStep_eq] at h
        split at h
        · unfold groupStep at h
          split at h <;> cases h
          exact ⟨rfl, rfl, rfl, rfl⟩
        · cases h
          exact ⟨rfl, rfl, rfl, rfl⟩
      · cases h
        exact ⟨rfl, rfl, rfl, rfl⟩
    · cases h
      exact ⟨rfl, rfl, rfl, rfl⟩
  | retire pos =>
    simp only [takeMove, retireMove] at h
    split at h
    · split at h <;> cases h <;> exact ⟨rfl, rfl, rfl, rfl⟩
    · cases h
      exact ⟨rfl, rfl, rfl, rfl⟩
  | reset => cases h; exact ⟨rfl, rfl, rfl, rfl⟩
  | loadEntry copy i d =>
    simp only [takeMove, loadMove] at h
    split at h <;> cases h
    exact ⟨rfl, rfl, rfl, rfl⟩

/-- No move changes which moves come next. -/
theorem takeMove_keeps {mv : Move} {s t : State} (h : takeMove mv s = .next t) :
    t.agenda = s.agenda ∧ t.turn = s.turn := by
  by_cases hmv : mv = .host
  · subst hmv
    exact hostStep_keeps h
  · exact (takeMove_hostSide hmv h).2.2

/-- CORE has an enabled step whenever a command is in flight (43_control.md R168). -/
theorem coreMoves_eq_nil_iff (s : State) : coreMoves s = [] ↔ s.queue = [] := by
  constructor
  · intro h
    cases hq : s.queue with
    | nil => rfl
    | cons c l => cases hp : c.pend <;> simp [coreMoves, hq, recordMoves, hp] at h
  · intro h
    simp [coreMoves, h]

end Sys2Proof.Machine
end

