-- ==== Sys2Proof/Laws/PerInstr.lean ====
section
/-! SUPPORT. Statements about every command as syntax. -/

/-- The word of a command lies in the row of the opcode table that the command stands for, whatever its index:
`(w AND mask) = match` with the mask 0xFFFF0000 (30_encoding.md R83). -/
def Sys2Proof.Laws.SelectsRow.Statement (i : Sys2Proof.Instr) : Prop :=
  Sys2Proof.encode i &&& 0xFFFF0000#32 = Sys2Proof.matchWord i

namespace Sys2Proof.Laws.SelectsRow

/-- The mask keeps the upper half of the word and clears the lower. -/
theorem mask_eq (w : Word) : w &&& 0xFFFF0000#32 = (w >>> 16) <<< 16 := by
  apply BitVec.eq_of_getLsbD_eq
  intro i hi
  simp only [BitVec.getLsbD_and, BitVec.getLsbD_shiftLeft, BitVec.getLsbD_ushiftRight]
  have hm : (0xFFFF0000#32).getLsbD i = decide (16 ≤ i) := by
    revert i; decide
  by_cases h : i < 16
  · simp [hm, h, Nat.not_le.mpr h]
  · simp [hm, h, hi, Nat.le_of_not_lt h, Nat.add_sub_cancel' (Nat.le_of_not_lt h)]

theorem row_of_toNat {w : Word} {k : Nat} (h : w.toNat / 65536 = k) :
    w &&& 0xFFFF0000#32 = BitVec.ofNat 32 (k * 65536) := by
  rw [mask_eq]
  apply BitVec.eq_of_toNat_eq
  simp only [BitVec.toNat_shiftLeft, BitVec.toNat_ushiftRight, BitVec.toNat_ofNat, Nat.shiftRight_eq_div_pow,
    Nat.shiftLeft_eq]
  omega

theorem convert (idx : Nat) : Statement (.convert idx) := by
  refine row_of_toNat (k := 0x0100) ?_
  simp only [encode, BitVec.toNat_ofNat]
  omega

theorem convertBatched (m : Nat) : Statement (.convertBatched m) := by
  refine row_of_toNat (k := 0x0200) ?_
  simp only [encode, BitVec.toNat_ofNat]
  omega

end Sys2Proof.Laws.SelectsRow
end

