-- ==== Sys2Proof/Laws/Reducer.lean ====
section
/-! SUPPORT. Integer facts behind the reducer (40_reducer.md R102 to R106). -/

namespace Sys2Proof.Machine

theorem word_toInt_bounds (x : Word) : -2 ^ 31 ≤ x.toInt ∧ x.toInt < 2 ^ 31 := by
  have := BitVec.le_toInt x
  have := BitVec.toInt_lt (x := x)
  omega

/-- The product of two `int32` fits 64 bits (R102). -/
theorem mul_toInt_bounds (x y : Word) : -2 ^ 62 ≤ x.toInt * y.toInt ∧ x.toInt * y.toInt ≤ 2 ^ 62 := by
  obtain ⟨h1, h2⟩ := word_toInt_bounds x
  obtain ⟨h3, h4⟩ := word_toInt_bounds y
  constructor <;> nlinarith

/-- The sign bit of a value that fits 32 bits (10_state.md R26). -/
theorem signBit32_eq {z : Int} (h : -2 ^ 31 ≤ z) (h' : z < 2 ^ 31) : signBit32 z = decide (z < 0) := by
  rw [signBit32, BitVec.msb_eq_toInt, BitVec.toInt_ofInt]
  congr 1
  rw [Int.bmod_eq_of_le (by omega) (by omega)]

@[simp] theorem mask32_true : mask32 true = BitVec.allOnes 32 := rfl
@[simp] theorem mask32_false : mask32 false = 0#32 := rfl

/-- NARROW8 loses nothing of a value in a byte's range (R106). -/
theorem narrow8_toNat {y : Int} (h : 0 ≤ y) (h' : y < 256) : ((narrow8 y).toNat : Int) = y := by
  simp only [narrow8, BitVec.extractLsb'_toNat, BitVec.toNat_ofInt, Nat.shiftRight_zero]
  omega

/-- The bounds behind R104: with `q` the floor of `x r / P` and `r = floor(P/p) - 1`, `x - q p` leaves `[0, p)` by less
than one modulus, upwards for `x ≥ 0` and downwards for `x < 0`. -/
theorem candidate_bounds {x P r p : Int} (hP : P = 2 ^ 32) (hx : -2 ^ 31 ≤ x) (hx' : x < 2 ^ 31) (hp : 2 ≤ p)
    (hp' : p ≤ 256) (hr : r = P / p - 1) :
    (0 ≤ x → 0 ≤ x - x * r / P * p ∧ x - x * r / P * p < 2 * p) ∧
    (x < 0 → -p < x - x * r / P * p ∧ x - x * r / P * p ≤ p - 1) := by
  have hPpos : 0 < P := by omega
  have hr1 : r * p ≤ P - p := by
    have := Int.ediv_mul_le P (b := p) (by omega)
    rw [hr]; linarith [Int.sub_mul (P / p) 1 p]
  have hr2 : P - 2 * p < r * p := by
    have := Int.lt_ediv_add_one_mul_self P (b := p) (by omega)
    rw [hr]; nlinarith
  obtain ⟨q, hq⟩ : ∃ q, q = x * r / P := ⟨_, rfl⟩
  rw [← hq]
  have hq1 : q * P ≤ x * r := by rw [hq]; exact Int.ediv_mul_le _ (by omega)
  have hq2 : x * r < q * P + P := by
    have := Int.lt_ediv_add_one_mul_self (x * r) (b := P) (by omega)
    rw [hq]; nlinarith
  have hA : q * P * p ≤ x * r * p := Int.mul_le_mul_of_nonneg_right hq1 (by omega)
  have hB : x * r * p < q * P * p + P * p := by nlinarith
  refine ⟨fun h => ?_, fun h => ?_⟩
  · have hC : x * (r * p) ≤ x * (P - p) := Int.mul_le_mul_of_nonneg_left hr1 h
    have hD : x * (P - 2 * p) ≤ x * (r * p) := Int.mul_le_mul_of_nonneg_left hr2.le h
    constructor
    · by_contra hh
      have : (x - q * p) * P ≤ -1 * P := Int.mul_le_mul_of_nonneg_right (by omega) (by omega)
      nlinarith
    · by_contra hh
      have : 2 * p * P ≤ (x - q * p) * P := Int.mul_le_mul_of_nonneg_right (by omega) (by omega)
      nlinarith
  · have hD : x * (r * p) < x * (P - 2 * p) := mul_lt_mul_of_neg_left hr2 h
    have hE : -2 * x * p ≤ P * p := Int.mul_le_mul_of_nonneg_right (by omega) (by omega)
    constructor
    · by_contra hh
      have : (x - q * p) * P ≤ -p * P := Int.mul_le_mul_of_nonneg_right (by omega) (by omega)
      nlinarith
    · have hfl : x / p ≤ q := by
        rw [hq]
        apply Int.le_ediv_of_mul_le hPpos
        have := Int.ediv_mul_le x (b := p) (by omega)
        have := Int.ediv_neg_of_neg_of_pos (a := x) (b := p) (by omega) (by omega)
        have : p * (x / p * P) ≤ p * (x * r) := by nlinarith
        exact le_of_mul_le_mul_left this (by omega)
      have := Int.lt_ediv_add_one_mul_self x (b := p) (by omega)
      nlinarith

end Sys2Proof.Machine
end

