-- ==== Sys2Proof/Machine/Assembler.lean ====
section
/-! DEFINITION. The assembler's lines and pseudo-instructions as host actions (30_encoding.md R91, R92). -/

namespace Sys2Proof.Machine

/-- `WR ACC_BASE, v`. -/
def HostAction.wrAccBase (v : DWord) : HostAction := .regWrite 0x00 8 v

/-- `WR RES_BASE, v`. -/
def HostAction.wrResBase (v : DWord) : HostAction := .regWrite 0x08 8 v

/-- `WR COUNT, v`. -/
def HostAction.wrCount (v : DWord) : HostAction := .regWrite 0x10 8 v

/-- A launch line: a 32-bit write of the command's word to `CMD`. -/
def HostAction.command (i : Instr) : HostAction := .regWrite 0x18 4 ((encode i).setWidth 64)

/-- `RD STATUS`. -/
def HostAction.rdStatus : HostAction := .regRead 0x1C 4

/-- `CONVERT256`, an alias of `CONVERT 0` (R92). -/
def HostAction.convert256 : HostAction := .command (.convert 0)

/-- What `CALL_CONVERT` and `CALL_CONVERT_BATCHED` expand to (R92). -/
def callLines (i : Instr) (n acc res : DWord) : List HostAction :=
  [.wrCount n, .wrAccBase acc, .wrResBase res, .command i]

/-- `CALL_CONVERT idx, n, acc, res` (R92). -/
def callConvert (idx : Nat) (n acc res : DWord) : List HostAction := callLines (.convert idx) n acc res

/-- `CALL_CONVERT_BATCHED m, n, acc, res` (R92). -/
def callConvertBatched (m : Nat) (n acc res : DWord) : List HostAction := callLines (.convertBatched m) n acc res

end Sys2Proof.Machine
end

