-- ==== Sys2Proof/Tests/Slice0.lean ====
section
/-! SUPPORT. Tests: decoding, the spec's worked examples, and for every statement with hypotheses a state and operands that
meet them. Expected values are those of spec/95_test_vectors.md or read off the rules cited. -/

namespace Sys2Proof.Tests

open Sys2Proof.Machine

/-! ### Well-formedness (30_encoding.md R82, R91) -/

theorem test_convert_index_too_wide : (Instr.convert 65536).wf = false := by decide
theorem test_convertBatched_index_too_wide : (Instr.convertBatched 65536).wf = false := by decide
theorem test_convert_index_fits : (Instr.convert 65535).wf = true := by decide
theorem test_convertBatched_index_fits : (Instr.convertBatched 65535).wf = true := by decide

/-! ### Decoding (95_test_vectors.md section 2.7): words written out from R81 and R83, OPC, RSV, IDX in this order -/

theorem test_decode_convert : decode (0b00000001#8 ++ 0b00000000#8 ++ 0b0000000000000011#16) = .ok (.convert 3) := by decide
theorem test_decode_convert_last : decode 0x0100FFFF#32 = .ok (.convert 65535) := by decide
theorem test_decode_convertBatched :
    decode (0b00000010#8 ++ 0b00000000#8 ++ 0b0000000000000100#16) = .ok (.convertBatched 4) := by decide
theorem test_decode_zero_word : decode 0x00000000#32 = .error .reservedOpcode := by decide
theorem test_decode_other_opcode : decode 0xFF000001#32 = .error .reservedOpcode := by decide
theorem test_decode_reserved_field : decode 0x02FF0002#32 = .error .reservedField := by decide
theorem test_encode_convert : encode (.convert 3) = 0b00000001#8 ++ 0b00000000#8 ++ 0b0000000000000011#16 := by decide
theorem test_encode_convertBatched : encode (.convertBatched 4) = 0x02000004#32 := by decide
theorem test_decodeTableWord : decodeTableWord 32 0x02000002 = some (.convertBatched 2) := by decide

/-! ### The reducer (95_test_vectors.md sections 1.1, 2.3 to 2.5) -/

theorem test_mulhi_rounds_down : mulhi (BitVec.ofInt 32 (-5)) 2147483647#32 = BitVec.ofInt 32 (-3) := by decide
theorem test_msub_p3_lowest : msub (BitVec.ofInt 32 (-2147483648)) (BitVec.ofInt 32 (-715827882)) 3#9 = -2 := by decide
theorem test_corr_at_p : corr 13 13#9 = 0 := by decide
theorem test_corr_below_zero : corr (-2) 3#9 = 1 := by decide
theorem test_narrow8 : narrow8 255 = 255#8 := by decide
theorem test_reduce_p255_highest : reduce 2147483647#32 16843008#32 255#9 0#8 = 127#8 := by decide
theorem test_reduce_p127_lowest : reduce (BitVec.ofInt 32 (-2147483648)) 33818639#32 127#9 0#8 = 119#8 := by decide
theorem test_trunc8_negative : trunc8 (BitVec.ofInt 32 (-305419896)) = 136#8 := by decide

/-! ### A machine with the table TT of 95_test_vectors.md, `Accessible` = [0x1000, 0x3000), `NQ` = 2 -/

/-- A slot both copies of which hold the descriptor. -/
def slot (p : BitVec 8) (invp : Word) : TableSlot := ⟨⟨p, invp⟩, ⟨p, invp⟩⟩

/-- TT, with `LANES_PER_BLOCK` = `more` + 1. -/
def platform (more : Nat) : Platform where
  slot0 := slot 0#8 0#32
  genuine := [slot 13#8 330382098#32, slot 2#8 2147483647#32, slot 251#8 17111422#32]
  moreLanes := more
  moreSlots := 1
  regions := [⟨0x1000, 0x2000⟩]
  regBase := none

/-- Right after reset. -/
def idle : State := { State.reset with plat := platform 0 }

/-- With operand registers written. -/
def ready (n ab rb : DWord) : State := { idle with count := some n, accBase := some ab, resBase := some rb }

def operands : LaunchOperands := ⟨16, 0x1000, 0x2000⟩

/-- Scenario 2: 27, -1, 13, -13 at an address, little-endian. -/
def scenario2 (a : Nat) : List Host.Cell :=
  [(a, 27#8), (a + 4, 0xFF#8), (a + 5, 0xFF#8), (a + 6, 0xFF#8), (a + 7, 0xFF#8), (a + 8, 13#8),
   (a + 12, 0xF3#8), (a + 13, 0xFF#8), (a + 14, 0xFF#8), (a + 15, 0xFF#8)]

/-- Its residues modulo 13: 1, 12, 0, 0. -/
def residues2 (a : Nat) : List Host.Cell := [(a, 1#8), (a + 1, 12#8)]

/-- Input and residues of a CONVERT at 0x1000 and 0x2000. -/
def doneSingle : Memory := scenario2 0x1000 ++ residues2 0x2000

/-- The same for sub-buffer 1 of a CONVERT_BATCHED; its sub-buffer 0 is all zero (scenario 4). -/
def doneBatched : Memory := scenario2 0x1040 ++ residues2 0x2010

/-- CONVERT 1 in flight on 16 elements at 0x1000, with some of its lanes pending. -/
def single (pend : List Coord) : Command := ⟨.convert, 1, 16, 0x1000, 0x2000, pend⟩

/-- CONVERT_BATCHED 2 in flight on twice 16 elements. -/
def batched (pend : List Coord) : Command := ⟨.convertBatched, 2, 16, 0x1000, 0x2000, pend⟩

def lanes4 (k : Nat) : List Coord := [⟨0, k⟩, ⟨1, k⟩, ⟨2, k⟩, ⟨3, k⟩]

/-- Launched, no lane has stepped; the agenda is given. -/
def launched (agenda : List Move) : State :=
  { ready 16 0x1000 0x2000 with mem := scenario2 0x1000, queue := [single (lanes4 0)], agenda := agenda }

/-- Lane 0 has stepped. -/
def halfway (agenda : List Move) : State :=
  { launched agenda with
    mem := doneSingle, queue := [single [⟨1, 0⟩, ⟨2, 0⟩, ⟨3, 0⟩]] }

/-- Every lane has stepped. -/
def finished (agenda : List Move) : State :=
  { launched agenda with mem := doneSingle, queue := [single []] }

/-- A batched command in flight. -/
def launchedBatched (agenda : List Move) : State :=
  { launched agenda with mem := scenario2 0x1040, queue := [batched (lanes4 0 ++ lanes4 1)] }

/-- A finished batched command. -/
def finishedBatched : State :=
  { launched [] with mem := doneBatched, queue := [batched []] }

/-- With a second command the queue is full. -/
def full (agenda : List Move) : State :=
  { launched agenda with queue := [single (lanes4 0), ⟨.convert, 0, 0, 0x1000, 0x1000, []⟩] }

/-- The host is next, with one action. -/
def hosting (s : State) (a : HostAction) : State := { s with agenda := [.host], program := [a] }

def answers (r : Result) : Option State :=
  match r with
  | .next t => some t
  | _ => none

def reason (r : Result) : Option Refusal :=
  match r with
  | .refused e => some e
  | _ => none

def byteAfter (r : Result) (a : Nat) : Option Byte := (answers r).map fun t => t.mem.read a

/-! ### The commands: one step each (95_test_vectors.md sections 1.1, 2.6, 2.7) -/

/-- R124's worked example, element 1: -1 modulo 13 is 12. -/
theorem test_convert_lane_residue : byteAfter (step (launched [.lane 0 ⟨0, 0⟩])) 0x2001 = some 12#8 := by decide

theorem test_convert_index_out_of_range :
    reason (exec (.convert 4) (ready 16 0x1000 0x2000)) = some .indexOutOfRange := by decide

/-- Lane (0, 1) loads 0x1040 .. 0x104F and stores 0x2010 .. 0x2013. -/
theorem test_convertBatched_lane_residue :
    byteAfter (step (launchedBatched [.lane 0 ⟨0, 1⟩])) 0x2011 = some 12#8 := by decide

theorem test_convertBatched_too_many_moduli :
    reason (exec (.convertBatched 5) (ready 16 0x1000 0x2000)) = some .numModuliOutOfRange := by decide

/-- The host does not own the buffers of a command that RESET discarded before it reads `STATUS` (20_memory.md R70). -/
theorem test_reset_keeps_ownership :
    reason (step (hosting (resetMove (launched [])) (.memWrite 0x2000 [1#8]))) = some .hostRace := by decide

/-! ### The grid and the assembler (95_test_vectors.md section 2.6; 30_encoding.md R91, R92) -/

theorem test_grid_rounds_up : (platform 2).gridWidth 16 = 6 := by decide

/-- `CONVERT256` is a 32-bit write of 0x01000000 at offset 0x18. -/
theorem test_convert256 : HostAction.convert256 = .regWrite 0x18 4 0x01000000 := by decide

theorem test_call_convertBatched : callConvertBatched 2 16 0x1000 0x2000 =
    [.regWrite 0x10 8 16, .regWrite 0x00 8 0x1000, .regWrite 0x08 8 0x2000, .regWrite 0x18 4 0x02000002] := by decide

/-! ### The invariants of the states above -/

/-- `CommandOk`, as a check. -/
def recordCheck (p : Platform) (c : Command) : Bool :=
  decide (c.n.toNat % 16 = 0) && (indexCheck p c).1 && decide (c.ab.toNat % 16 = 0) && decide (c.rb.toNat % 4 = 0) &&
    decide (c.accExt.hi ≤ addrSpace) && decide (c.resExt.hi ≤ addrSpace) && p.accessible c.accExt && p.accessible c.resExt &&
    !c.accExt.meets c.resExt && c.pend.all (fun co => decide (co ∈ p.grid c.op c.idx c.n.toNat)) && decide c.pend.Nodup

theorem commandOk_of_check {p : Platform} {c : Command} (h : recordCheck p c = true) : CommandOk p c := by
  simp only [recordCheck, Bool.and_eq_true, decide_eq_true_eq, indexCheck_iff, accessible_iff, Bool.not_eq_true',
    not_meets_iff, List.all_eq_true] at h
  obtain ⟨⟨⟨⟨⟨⟨⟨⟨⟨⟨h1, h2, h3⟩, h4⟩, h5⟩, h6⟩, h7⟩, h8⟩, h9⟩, h10⟩, h11⟩, h12⟩ := h
  exact ⟨h1, h2, h3, h4, h5, h6, h7, h8, h9, h10, h11, h12⟩

/-- `QueueOk`, as a check of the queue on the test platform. -/
def queueCheck (q : List Command) : Bool :=
  decide (q.length ≤ 2) && q.all (recordCheck (platform 0)) && decide (q.Pairwise (fun c d => c.apart d = true))

theorem queueOk_of_check {s : State} (hp : s.plat = platform 0) (h : queueCheck s.queue = true) : QueueOk s := by
  simp only [queueCheck, Bool.and_eq_true, decide_eq_true_eq] at h
  refine ⟨by rw [hp]; exact h.1.1, fun c hc => commandOk_of_check (by rw [hp]; exact List.all_eq_true.mp h.1.2 c hc),
    h.2.imp fun h => (apart_iff _ _).mp h, fun _ => ?_⟩
  rw [hp]
  exact (tableConsistent_iff _).mp (by decide)

theorem queueCheck_launched : queueCheck [single (lanes4 0)] = true := by decide
theorem queueCheck_halfway : queueCheck [single [⟨1, 0⟩, ⟨2, 0⟩, ⟨3, 0⟩]] = true := by decide
theorem queueCheck_finished : queueCheck [single []] = true := by decide
theorem queueCheck_batched : queueCheck [batched (lanes4 0 ++ lanes4 1)] = true := by decide
theorem queueCheck_finishedBatched : queueCheck [batched []] = true := by decide
theorem queueCheck_full : queueCheck [single (lanes4 0), ⟨.convert, 0, 0, 0x1000, 0x1000, []⟩] = true := by decide

theorem queueOk_launched (ag : List Move) : QueueOk (launched ag) := queueOk_of_check rfl queueCheck_launched
theorem queueOk_halfway (ag : List Move) : QueueOk (halfway ag) := queueOk_of_check rfl queueCheck_halfway
theorem queueOk_finished (ag : List Move) : QueueOk (finished ag) := queueOk_of_check rfl queueCheck_finished
theorem queueOk_launchedBatched (ag : List Move) : QueueOk (launchedBatched ag) := queueOk_of_check rfl queueCheck_batched
theorem queueOk_finishedBatched : QueueOk finishedBatched := queueOk_of_check rfl queueCheck_finishedBatched
theorem queueOk_full (ag : List Move) : QueueOk (full ag) := queueOk_of_check rfl queueCheck_full
theorem queueOk_ready (n ab rb : DWord) : QueueOk (ready n ab rb) := queueOk_of_check rfl rfl

theorem validIndex_1 (more : Nat) : (platform more).ValidIndex 1 := .inr ⟨⟨13#8, 330382098#32⟩, rfl, by decide, by decide⟩
theorem validIndex_2 (more : Nat) : (platform more).ValidIndex 2 := .inr ⟨⟨2#8, 2147483647#32⟩, rfl, by decide, by decide⟩
theorem validIndex_0 (more : Nat) : (platform more).ValidIndex 0 := .inl rfl

theorem grid_single : (platform 0).grid .convert 1 16 = lanes4 0 := by decide
theorem grid_batched : (platform 0).grid .convertBatched 2 16 = lanes4 0 ++ lanes4 1 := by decide

theorem residuesStored_halfway (ag : List Move) : ResiduesStored (halfway ag) := by
  intro c hc co hco hp _ _
  obtain rfl : c = single [⟨1, 0⟩, ⟨2, 0⟩, ⟨3, 0⟩] := List.mem_singleton.mp hc
  have key : ∀ co ∈ lanes4 0, co ∉ [(⟨1, 0⟩ : Coord), ⟨2, 0⟩, ⟨3, 0⟩] → ∀ j, j < 4 →
      ((doneSingle.read (0x2000 + 4 * co.g + j)).toNat : Int) =
        (doneSingle.accRead (0x1000 + 16 * co.g + 4 * j)).toInt % 13 := by decide
  have hg : co ∈ (platform 0).grid .convert 1 16 := hco
  rw [grid_single] at hg
  exact key co hg hp

theorem residuesStored_finished (ag : List Move) : ResiduesStored (finished ag) := by
  intro c hc co hco _ _ _
  obtain rfl : c = single [] := List.mem_singleton.mp hc
  have key : ∀ co ∈ lanes4 0, ∀ j, j < 4 →
      ((doneSingle.read (0x2000 + 4 * co.g + j)).toNat : Int) =
        (doneSingle.accRead (0x1000 + 16 * co.g + 4 * j)).toInt % 13 := by decide
  have hg : co ∈ (platform 0).grid .convert 1 16 := hco
  rw [grid_single] at hg
  exact key co hg

theorem residuesStored_finishedBatched : ResiduesStored finishedBatched := by
  intro c hc co hco _ _ _
  obtain rfl : c = batched [] := List.mem_singleton.mp hc
  have key : ∀ co ∈ lanes4 0 ++ lanes4 1, ∀ j, j < 4 →
      ((doneBatched.read (0x2000 + co.k * 16 + 4 * co.g + j)).toNat : Int) =
        (doneBatched.accRead (0x1000 + 4 * (co.k * 16) + 16 * co.g + 4 * j)).toInt %
          (platform 0).modulus co.k := by decide
  have hg : co ∈ (platform 0).grid .convertBatched 2 16 := hco
  rw [grid_batched] at hg
  exact key co hg

theorem admitted_single : Admitted (ready 16 0x1000 0x2000) (newCommand (platform 0) .convert 1 operands) :=
  (admitted_iff _ _).mp (by decide)
theorem admitted_batched : Admitted (ready 16 0x1000 0x2000) (newCommand (platform 0) .convertBatched 2 operands) :=
  (admitted_iff _ _).mp (by decide)

/-! ### Hypotheses met: one theorem per statement with hypotheses, one part per clause -/

theorem witness_DecodeOfEncodeIsTheCommand : (Instr.convert 65535).wf = true ∧ (Instr.convertBatched 65535).wf = true := by
  decide

theorem witness_EncodeOfDecodeIsTheWord :
    decode 0x0100FFFF#32 = .ok (.convert 65535) ∧ decode 0x02000000#32 = .ok (.convertBatched 0) := by decide

theorem witness_DecodeFollowsTheFields :
    (0x03000000#32).toNat / 2 ^ 24 ≠ 1 ∧ (0x03000000#32).toNat / 2 ^ 24 ≠ 2 ∧
    (0x0001FFFF#32).toNat / 2 ^ 24 ≠ 1 ∧ (0x0001FFFF#32).toNat / 2 ^ 24 ≠ 2 ∧
    (0x01010001#32).toNat / 2 ^ 24 = 1 ∧ (0x01010001#32).toNat / 2 ^ 16 % 256 ≠ 0 ∧
    (0x02FF0002#32).toNat / 2 ^ 24 = 2 ∧ (0x02FF0002#32).toNat / 2 ^ 16 % 256 ≠ 0 ∧
    (0x0100FFFF#32).toNat / 2 ^ 24 = 1 ∧ (0x0100FFFF#32).toNat / 2 ^ 16 % 256 = 0 ∧
    (0x0200FFFF#32).toNat / 2 ^ 24 = 2 ∧ (0x0200FFFF#32).toNat / 2 ^ 16 % 256 = 0 := by decide

theorem witness_StepRunsTheDecodedCommand :
    (let s : State := { ready 16 0x1000 0x2000 with heldWrite := some 0x01000001, agenda := [.host] }
     s.agenda = .host :: [] ∧ s.heldWrite = some 0x01000001 ∧ decode 0x01000001 = .ok (.convert 1)) ∧
    (HostIsNext (hosting (ready 16 0x1000 0x2000) (.regWrite 0x18 4 0x02000002)) (.regWrite 0x18 4 0x02000002) [] [] ∧
      decode ((0x02000002 : DWord).setWidth 32) = .ok (.convertBatched 2)) ∧
    (0x01000001 < 2 ^ 32 ∧ decode (BitVec.ofNat 32 0x01000001) = .ok (.convert 1)) ∧
    (let s : State := { ready 16 0x1000 0x2000 with heldWrite := some 0x02000002 }
     s.agenda = [] ∧ s.queue = [] ∧ s.heldWrite = some 0x02000002 ∧ decode 0x02000002 = .ok (.convertBatched 2)) :=
  ⟨⟨rfl, rfl, by decide⟩, ⟨⟨rfl, rfl, rfl⟩, by decide⟩, ⟨by decide, by decide⟩, ⟨rfl, rfl, rfl, by decide⟩⟩

theorem witness_ReservedWordsAreRefused :
    ((HostIsNext (hosting idle (.regWrite 0x18 4 0xFF03000001)) (.regWrite 0x18 4 0xFF03000001) [] [] ∧
      (hosting idle (.regWrite 0x18 4 0xFF03000001)).queue.length < (hosting idle (.regWrite 0x18 4 0xFF03000001)).plat.nq ∧
      (0xFF03000001 : DWord).toNat % 2 ^ 32 / 2 ^ 24 ≠ 1 ∧ (0xFF03000001 : DWord).toNat % 2 ^ 32 / 2 ^ 24 ≠ 2) ∧
    (HostIsNext (hosting idle (.regWrite 0x18 4 0x02FF0002)) (.regWrite 0x18 4 0x02FF0002) [] [] ∧
      (hosting idle (.regWrite 0x18 4 0x02FF0002)).queue.length < (hosting idle (.regWrite 0x18 4 0x02FF0002)).plat.nq ∧
      (0x02FF0002 : DWord).toNat % 2 ^ 32 / 2 ^ 24 = 2 ∧ (0x02FF0002 : DWord).toNat / 2 ^ 16 % 256 ≠ 0)) ∧
    (let s : State := { idle with agenda := [.host], heldWrite := some 0x03000001 }
     s.agenda = .host :: [] ∧ s.heldWrite = some 0x03000001 ∧ s.queue.length < s.plat.nq ∧
      (0x03000001 : Word).toNat / 2 ^ 24 ≠ 1 ∧ (0x03000001 : Word).toNat / 2 ^ 24 ≠ 2) ∧
    (let s : State := { idle with agenda := [.host], heldWrite := some 0x01FF0002 }
     s.agenda = .host :: [] ∧ s.heldWrite = some 0x01FF0002 ∧ s.queue.length < s.plat.nq ∧
      (0x01FF0002 : Word).toNat / 2 ^ 24 = 1 ∧ (0x01FF0002 : Word).toNat / 2 ^ 16 % 256 ≠ 0) :=
  ⟨⟨⟨⟨rfl, rfl, rfl⟩, by decide, by decide, by decide⟩, ⟨⟨rfl, rfl, rfl⟩, by decide, by decide, by decide⟩⟩,
    ⟨rfl, rfl, by decide, by decide, by decide⟩, rfl, rfl, by decide, by decide, by decide⟩

theorem witness_hostIsNext (s : State) (a : HostAction) (h : s.heldWrite = none) : HostIsNext (hosting s a) a [] [] :=
  ⟨rfl, h, rfl⟩

theorem witness_RegisterWriteSetsOneRegister :
    HostIsNext (hosting idle (.regWrite 0x00 8 0x1000)) (.regWrite 0x00 8 0x1000) [] [] ∧
    HostIsNext (hosting idle (.regWrite 0x08 8 0x1000)) (.regWrite 0x08 8 0x1000) [] [] ∧
    HostIsNext (hosting idle (.regWrite 0x10 8 0x1000)) (.regWrite 0x10 8 0x1000) [] [] :=
  ⟨witness_hostIsNext _ _ rfl, witness_hostIsNext _ _ rfl, witness_hostIsNext _ _ rfl⟩

/-- Unwritten registers and a written one. -/
theorem witness_RegisterReadReturnsTheValue :
    HostIsNext (hosting idle (.regRead 0x00 8)) (.regRead 0x00 8) [] [] ∧
    HostIsNext (hosting idle (.regRead 0x08 8)) (.regRead 0x08 8) [] [] ∧
    HostIsNext (hosting (ready 16 0x1000 0x2000) (.regRead 0x10 8)) (.regRead 0x10 8) [] [] :=
  ⟨witness_hostIsNext _ _ rfl, witness_hostIsNext _ _ rfl, witness_hostIsNext _ _ rfl⟩

theorem witness_CmdReadsZeroStatusIgnoresWrites :
    HostIsNext (hosting idle (.regRead 0x18 4)) (.regRead 0x18 4) [] [] ∧
    HostIsNext (hosting idle (.regWrite 0x1C 4 1)) (.regWrite 0x1C 4 1) [] [] :=
  ⟨witness_hostIsNext _ _ rfl, witness_hostIsNext _ _ rfl⟩

theorem witness_OnlyWholeRegisterAccesses :
    (HostIsNext (hosting idle (.regWrite 0x04 4 1)) (.regWrite 0x04 4 1) [] [] ∧
      (0x04, 4) ∉ [(0x00, 8), (0x08, 8), (0x10, 8), (0x18, 4), (0x1C, 4)]) ∧
    (HostIsNext (hosting idle (.regRead 0x1C 4)) (.regRead 0x1C 4) [] [] ∧
      (0x1C, 4) ∈ [(0x00, 8), (0x08, 8), (0x10, 8), (0x18, 4), (0x1C, 4)]) ∧
    (HostIsNext (hosting idle (.regRead 0x18 8)) (.regRead 0x18 8) [] [] ∧
      (0x18, 8) ∉ [(0x00, 8), (0x08, 8), (0x10, 8), (0x18, 4), (0x1C, 4)]) :=
  ⟨⟨witness_hostIsNext _ _ rfl, by decide⟩, ⟨witness_hostIsNext _ _ rfl, by decide⟩,
    ⟨witness_hostIsNext _ _ rfl, by decide⟩⟩

/-- With a command in flight and with none. -/
theorem witness_StatusReadsBusy :
    HostIsNext (hosting { idle with unjoined := [single []] } (.regRead 0x1C 4)) (.regRead 0x1C 4) [] [] ∧
    HostIsNext (hosting (launched []) (.regRead 0x1C 4)) (.regRead 0x1C 4) [] [] :=
  ⟨witness_hostIsNext _ _ rfl, witness_hostIsNext _ _ rfl⟩

theorem witness_JoinEndsWhenNothingIsInFlight :
    HostIsNext (hosting { idle with unjoined := [single []] } .join) .join [] [] ∧
    HostIsNext (hosting (launched []) .join) .join [] [] :=
  ⟨witness_hostIsNext _ _ rfl, witness_hostIsNext _ _ rfl⟩

theorem witness_ConvertAppendsItsRecord :
    let s := ready 16 0x1000 0x2000
    s.count = some 16 ∧ s.accBase = some 0x1000 ∧ s.resBase = some 0x2000 ∧ s.queue.length < s.plat.nq ∧
      Admitted s ⟨.convert, 1, 16, 0x1000, 0x2000, s.plat.grid .convert 1 (16 : DWord).toNat⟩ :=
  ⟨rfl, rfl, rfl, by decide, admitted_single⟩

theorem witness_ConvertBatchedAppendsItsRecord :
    let s := ready 16 0x1000 0x2000
    s.count = some 16 ∧ s.accBase = some 0x1000 ∧ s.resBase = some 0x2000 ∧ s.queue.length < s.plat.nq ∧
      Admitted s ⟨.convertBatched, 2, 16, 0x1000, 0x2000, s.plat.grid .convertBatched 2 (16 : DWord).toNat⟩ :=
  ⟨rfl, rfl, rfl, by decide, admitted_batched⟩

/-- An admitted launch, and one that is not. -/
theorem witness_LaunchedExactlyWhenAdmitted :
    ((ready 16 0x1000 0x2000).queue.length < (ready 16 0x1000 0x2000).plat.nq ∧
      ∃ o, (ready 16 0x1000 0x2000).operands = some o ∧
        Admitted (ready 16 0x1000 0x2000) (newCommand (platform 0) .convert 1 o)) ∧
    (idle.queue.length < idle.plat.nq ∧
      ¬∃ o, idle.operands = some o ∧ Admitted idle (newCommand idle.plat .convertBatched 1 o)) :=
  ⟨⟨by decide, operands, rfl, admitted_single⟩, by decide, fun ⟨o, h, _⟩ => by cases h⟩

/-- Every reason that a launch can be refused for. -/
theorem witness_RefusalReasonIsTrue :
    exec (.convertBatched 1) idle = .refused .operandUnwritten ∧
    exec (.convert 1) (ready 17 0x1000 0x2000) = .refused .countGranularity ∧
    exec (.convert 4) (ready 16 0x1000 0x2000) = .refused .indexOutOfRange ∧
    exec (.convertBatched 5) (ready 16 0x1000 0x2000) = .refused .numModuliOutOfRange ∧
    exec (.convert 0) (ready 16 0x1008 0x2000) = .refused .misalignedBase ∧
    exec (.convert 0) (ready 16 0xFFFFFFFFFFFFFFF0 0x2000) = .refused .extentOverflow ∧
    exec (.convert 0) (ready 16 0x2FD0 0x1000) = .refused .extentNotAccessible ∧
    exec (.convert 0) (ready 16 0x1000 0x1030) = .refused .inPlace ∧
    exec (.convert 0) (launched []) = .refused .overlapInFlight ∧
    exec (.convert 0) { ready 16 0x1000 0x2000 with
      plat := { platform 0 with slot0 := ⟨⟨0, 0⟩, ⟨1, 0⟩⟩ } } = .refused .tableInconsistent :=
  ⟨rfl, rfl, rfl, rfl, rfl, rfl, rfl, rfl, rfl, rfl⟩

/-- A launch that is done, and one that holds. -/
theorem witness_LaunchChangesTheQueueOnly :
    (∃ t, exec (.convert 1) (ready 16 0x1000 0x2000) = .next t) ∧ (∃ t, exec (.convertBatched 1) (full []) = .next t) :=
  ⟨⟨_, rfl⟩, ⟨_, rfl⟩⟩

theorem witness_StatusIsBusyAfterALaunch :
    (∃ t, exec (.convertBatched 2) (ready 16 0x1000 0x2000) = .next t) ∧ (∃ t, exec (.convert 1) (full []) = .next t) :=
  ⟨⟨_, rfl⟩, ⟨_, rfl⟩⟩

/-- The word is a reserved one: it holds all the same. -/
theorem witness_FullQueueHoldsEveryWord :
    HostIsNext (hosting (full []) (.regWrite 0x18 4 0)) (.regWrite 0x18 4 0) [] [] ∧
      (hosting (full []) (.regWrite 0x18 4 0)).plat.nq ≤ (hosting (full []) (.regWrite 0x18 4 0)).queue.length :=
  ⟨witness_hostIsNext _ _ rfl, by decide⟩

theorem witness_HeldWriteWaitsForRoom :
    let s : State := { full [.host] with heldWrite := some 0x01000001 }
    s.agenda = .host :: [] ∧ s.heldWrite = some 0x01000001 ∧ s.plat.nq ≤ s.queue.length :=
  ⟨rfl, rfl, by decide⟩

/-- The last active lane. -/
theorem witness_SingleLaneConvertsItsGroup :
    let s := launched [.lane 0 ⟨3, 0⟩]
    let c := single (lanes4 0)
    s.agenda = .lane 0 ⟨3, 0⟩ :: [] ∧ s.queue[0]? = some c ∧ c.op = .convert ∧ (⟨3, 0⟩ : Coord) ∈ c.pend ∧
      3 < c.n.toNat / 4 ∧ c.accExt.hi ≤ 2 ^ 64 ∧ c.resExt.hi ≤ 2 ^ 64 := by
  refine ⟨rfl, rfl, rfl, ?_⟩
  decide

theorem witness_BatchedLaneConvertsItsGroup :
    let s := launchedBatched [.lane 0 ⟨3, 1⟩]
    let c := batched (lanes4 0 ++ lanes4 1)
    s.agenda = .lane 0 ⟨3, 1⟩ :: [] ∧ s.queue[0]? = some c ∧ c.op = .convertBatched ∧ (⟨3, 1⟩ : Coord) ∈ c.pend ∧
      3 < c.n.toNat / 4 ∧ 1 < c.idx ∧ c.accExt.hi ≤ 2 ^ 64 ∧ c.resExt.hi ≤ 2 ^ 64 := by
  refine ⟨rfl, rfl, rfl, ?_⟩
  decide

/-- The first and the last byte; the element is -13. -/
theorem witness_ElementBytesAreLittleEndian :
    0 < 4 ∧ 3 < 4 ∧ doneSingle.accRead 0x100C = BitVec.ofInt 32 (-13) := by decide

/-- The first inert lane, g = n/4. -/
theorem witness_InertLaneDoesNothing :
    let c := single [⟨4, 0⟩]
    let s : State := { launched [.lane 0 ⟨4, 0⟩] with queue := [c] }
    s.agenda = .lane 0 ⟨4, 0⟩ :: [] ∧ s.queue[0]? = some c ∧ (⟨4, 0⟩ : Coord) ∈ c.pend ∧ c.n.toNat / 4 ≤ 4 := by
  refine ⟨rfl, rfl, ?_⟩
  decide

theorem witness_LaneStepsOnce :
    let s := launched [.lane 0 ⟨0, 0⟩]
    QueueOk s ∧ s.agenda = .lane 0 ⟨0, 0⟩ :: [] ∧ s.queue[0]? = some (single (lanes4 0)) ∧
      (⟨0, 0⟩ : Coord) ∈ (single (lanes4 0)).pend ∧ ∃ t, step s = .next t :=
  ⟨queueOk_launched _, rfl, rfl, by decide, _, rfl⟩

theorem witness_LaneWritesItsResidueExtentOnly :
    let s := launched [.lane 0 ⟨0, 0⟩]
    QueueOk s ∧ s.agenda = .lane 0 ⟨0, 0⟩ :: [] ∧ ∃ t, step s = .next t ∧ t.mem.read 0x2001 ≠ s.mem.read 0x2001 :=
  ⟨queueOk_launched _, rfl, _, rfl, by decide⟩

/-- The last byte of the extent, and two active lanes. -/
theorem witness_LanesPartitionTheResidueExtent :
    let c := batched []
    c.n.toNat % 4 = 0 ∧ c.resExt.has 0x201F ∧ ¬c.resExt.has 0x2020 ∧
      (⟨3, 1⟩ : Coord) ∈ (platform 2).grid c.op c.idx c.n.toNat ∧
      (⟨0, 0⟩ : Coord) ∈ (platform 2).grid c.op c.idx c.n.toNat ∧
      active 3 c.n.toNat = true ∧ active 0 c.n.toNat = true := by decide

/-- B = 1 divides 4; B = 3 does not. -/
theorem witness_GridWidthRoundsUpToBlocks :
    16 / 4 % (platform 0).lanesPerBlock = 0 ∧ 16 / 4 % (platform 2).lanesPerBlock ≠ 0 := by decide

/-- The two ends of the moduli, with an element of either sign. -/
theorem witness_CandidateIsWithinOneModulus :
    2 ≤ (2#9).toNat ∧ (2#9).toNat ≤ 256 ∧ (2147483647#32).toInt = (2 ^ 32 / (2#9).toNat : Nat) - 1 ∧
    2 ≤ (256#9).toNat ∧ (256#9).toNat ≤ 256 ∧ (16777215#32).toInt = (2 ^ 32 / (256#9).toNat : Nat) - 1 ∧
    0 ≤ (0x7FFFFFFF#32).toInt ∧ (0x80000000#32).toInt < 0 := by decide

theorem witness_ReduceIsTheResidue :
    2 ≤ (13#9).toNat ∧ (13#9).toNat ≤ 256 ∧ (330382098#32).toInt = (2 ^ 32 / (13#9).toNat : Nat) - 1 := by decide

/-- Either end of the candidates: t = p, t = 2p - 1, t = 0, t = -1, and the lowest of R104. -/
theorem witness_CorrectionIsBothTestsAtOnce :
    ∀ t ∈ [(255 : Int), 509, 0, -1, -254], -2 ^ 31 + ((255#9).toNat : Int) ≤ t ∧ t < 2 ^ 31 := by decide

/-- p = 1, p = 257, and a reciprocal that is off by one. -/
theorem witness_ReduceOutsideItsDomainIsFree :
    (1#9).toNat ≤ 1 ∧ 256 < (257#9).toNat ∧ (330382099#32).toInt ≠ (2 ^ 32 / (13#9).toNat : Nat) - 1 := by decide

theorem witness_ElementOperationGivesTheResidue :
    (platform 0).ValidIndex 0 ∧ (platform 0).ValidIndex 1 ∧
    (∃ d, ({ platform 0 with genuine := [slot 13 330382099] } : Platform).lookup 1 = some d ∧ ¬d.Valid) :=
  ⟨validIndex_0 0, validIndex_1 0, ⟨13, 330382099⟩, rfl, fun h => absurd h.2 (by decide)⟩

theorem witness_ConvertConvertsItsBuffer :
    let s := ready 16 0x1000 0x2000
    (Instr.convert 1).wf = true ∧ QueueOk s ∧ s.queue.length < s.plat.nq ∧ s.operands = some operands ∧
      Admitted s (newCommand s.plat .convert 1 operands) ∧ s.plat.ValidIndex 1 ∧
      [(⟨3, 0⟩ : Coord), ⟨1, 0⟩, ⟨0, 0⟩, ⟨2, 0⟩].Perm (s.plat.grid .convert 1 operands.n.toNat) :=
  ⟨by decide, queueOk_ready _ _ _, by decide, rfl, admitted_single, validIndex_1 0, by decide⟩

/-- The indices are usable too. -/
theorem witness_ConvertBatchedConvertsItsBuffers :
    let s := ready 16 0x1000 0x2000
    (Instr.convertBatched 2).wf = true ∧ QueueOk s ∧ s.queue.length < s.plat.nq ∧ s.operands = some operands ∧
      Admitted s (newCommand s.plat .convertBatched 2 operands) ∧ s.plat.ValidIndex 0 ∧ s.plat.ValidIndex 1 ∧
      (lanes4 1 ++ lanes4 0).Perm (s.plat.grid .convertBatched 2 operands.n.toNat) :=
  ⟨by decide, queueOk_ready _ _ _, by decide, rfl, admitted_batched, validIndex_0 0, validIndex_1 0, by decide⟩

theorem witness_LaneOrderIsUnobservable :
    let s := launched []
    QueueOk s ∧ s.mem.wf = true ∧ s.queue[0]? = some (single (lanes4 0)) ∧
      (∀ co ∈ (single (lanes4 0)).pend, s.plat.ValidIndex ((single (lanes4 0)).laneIndex co)) ∧
      (lanes4 0).Perm (single (lanes4 0)).pend ∧ (lanes4 0).reverse.Perm (single (lanes4 0)).pend ∧
      (∃ t, Sys2Proof.core.run (lanes4 0).length { s with agenda := (lanes4 0).map (.lane 0) ++ [] } = .next t) ∧
      (∃ t, Sys2Proof.core.run (lanes4 0).reverse.length { s with agenda := (lanes4 0).reverse.map (.lane 0) ++ [] } =
        .next t) :=
  ⟨queueOk_launched _, by decide, rfl, fun _ _ => validIndex_1 0, by decide, by decide, ⟨_, rfl⟩, ⟨_, rfl⟩⟩

/-- The last element. -/
theorem witness_FinishedCommandHoldsItsResidues :
    let s := finished []
    QueueOk s ∧ ResiduesStored s ∧ single [] ∈ s.queue ∧ (single []).pend = [] ∧ 15 < (single []).elements ∧
      s.plat.ValidIndex ((single []).elementIndex 15) :=
  ⟨queueOk_finished _, residuesStored_finished _, by simp [finished], rfl, by decide, validIndex_1 0⟩

theorem witness_BatchedSliceEqualsSingle :
    let s := finishedBatched
    let s' := finished []
    QueueOk s ∧ QueueOk s' ∧ ResiduesStored s ∧ ResiduesStored s' ∧ batched [] ∈ s.queue ∧ single [] ∈ s'.queue ∧
      (batched []).op = .convertBatched ∧ (single []).op = .convert ∧ (batched []).pend = [] ∧ (single []).pend = [] ∧
      (single []).idx = 1 ∧ 1 < (batched []).idx ∧ (single []).n = (batched []).n ∧ s.plat.ValidIndex 1 ∧
      s'.plat.lookup 1 = s.plat.lookup 1 ∧
      ∀ j, j < (batched []).n.toNat →
        s'.mem.accRead ((single []).ab.toNat + 4 * j) =
          s.mem.accRead ((batched []).ab.toNat + 4 * (1 * (batched []).n.toNat + j)) := by
  refine ⟨queueOk_finishedBatched, queueOk_finished _, residuesStored_finishedBatched, residuesStored_finished _,
    by simp [finishedBatched], by simp [finished], rfl, rfl, rfl, rfl, rfl, by decide, rfl, validIndex_1 0, rfl, ?_⟩
  have key : ∀ j, j < 16 → doneSingle.accRead (0x1000 + 4 * j) = doneBatched.accRead (0x1000 + 4 * (1 * 16 + j)) := by
    decide
  exact key

/-- A finished record, and one with lanes pending. -/
theorem witness_RetireRemovesAFinishedRecord :
    ((finished [.retire 0]).agenda = .retire 0 :: [] ∧ (finished [.retire 0]).queue[0]? = some (single []) ∧
      (single []).pend = []) ∧
    ((launched [.retire 0]).agenda = .retire 0 :: [] ∧ (launched [.retire 0]).queue[0]? = some (single (lanes4 0)) ∧
      (single (lanes4 0)).pend ≠ []) :=
  ⟨⟨rfl, rfl, rfl⟩, rfl, rfl, by decide⟩

/-- A store that ends just below the residue extent of the command in flight. -/
theorem witness_HostStoresToBytesItOwns :
    let s := hosting (launched []) (.memWrite 0x1FFE [1#8, 2#8])
    HostIsNext s (.memWrite 0x1FFE [1#8, 2#8]) [] [] ∧ (0x1FFE : DWord).toNat + [1#8, 2#8].length ≤ 2 ^ 64 ∧
      ∀ a, (0x1FFE : DWord).toNat ≤ a → a < (0x1FFE : DWord).toNat + [1#8, 2#8].length → ∀ c ∈ s.queue ++ s.unjoined,
        ¬c.accExt.has a ∧ ¬c.resExt.has a := by
  refine ⟨witness_hostIsNext _ _ rfl, by decide, fun a h1 h2 c hc => ?_⟩
  obtain rfl : c = single (lanes4 0) := by
    simpa [hosting, launched, ready, idle, State.reset] using hc
  have e1 : (single (lanes4 0)).accExt = ⟨0x1000, 0x1040⟩ := rfl
  have e2 : (single (lanes4 0)).resExt = ⟨0x2000, 0x2010⟩ := rfl
  rw [e1, e2]
  have h1' : 0x1FFE ≤ a := h1
  have h2' : a < 0x2000 := h2
  simp only [Extent.has]
  omega

/-- The last byte of the accumulator extent; the last residue byte. -/
theorem witness_HostRaceIsRefused :
    let s := hosting (launched []) (.memWrite 0x103F [1#8, 2#8])
    HostIsNext s (.memWrite 0x103F [1#8, 2#8]) [] [] ∧ (0x103F : DWord).toNat + [1#8, 2#8].length ≤ 2 ^ 64 ∧
      ∃ a, (0x103F : DWord).toNat ≤ a ∧ a < (0x103F : DWord).toNat + [1#8, 2#8].length ∧ ∃ c ∈ s.queue ++ s.unjoined,
        c.accExt.has a ∨ c.resExt.has a := by
  refine ⟨witness_hostIsNext _ _ rfl, by decide, 0x103F, by decide, by decide, single (lanes4 0), ?_, .inl ?_⟩
  · simp [hosting, launched]
  · decide

/-- A byte in a residue extent in flight, and one outside. -/
theorem witness_HostLoadsWhatIsFixed :
    let s := hosting (launched []) (.memRead 0x200F 2)
    HostIsNext s (.memRead 0x200F 2) [] [] ∧ (0x200F : DWord).toNat + 2 ≤ 2 ^ 64 ∧
      (∃ c ∈ s.queue ++ s.unjoined, c.resExt.has ((0x200F : DWord).toNat + 0)) ∧
      (¬∃ c ∈ s.queue ++ s.unjoined, c.resExt.has ((0x200F : DWord).toNat + 1)) := by
  refine ⟨witness_hostIsNext _ _ rfl, by decide, ⟨single (lanes4 0), by simp [hosting, launched], by decide⟩, ?_⟩
  rintro ⟨c, hc, h⟩
  obtain rfl : c = single (lanes4 0) := by
    simpa [hosting, launched, ready, idle, State.reset] using hc
  exact absurd h (by decide)

/-- A byte of a discarded residue extent, and one outside. -/
theorem witness_ResetDiscardsEveryCommand :
    let s := launched [.reset]
    s.agenda = .reset :: [] ∧ (∃ c ∈ s.queue, c.resExt.has 0x2000) ∧ ¬∃ c ∈ s.queue, c.resExt.has 0x2010 := by
  refine ⟨rfl, ⟨single (lanes4 0), by simp [launched], by decide⟩, ?_⟩
  rintro ⟨c, hc, h⟩
  obtain rfl : c = single (lanes4 0) := by simpa [launched] using hc
  exact absurd h (by decide)

/-- In flight; the last entry in either copy; entry 0; and the first index without an entry. -/
theorem witness_TableLoadsOnlyWhileIdle :
    ((launched [.loadEntry .host 1 ⟨2, 2147483647⟩]).agenda = .loadEntry .host 1 ⟨2, 2147483647⟩ :: [] ∧
      (launched [.loadEntry .host 1 ⟨2, 2147483647⟩]).queue ≠ []) ∧
    (∀ copy i, let s : State := { idle with agenda := [.loadEntry copy i ⟨2, 2147483647⟩] }
      s.agenda = .loadEntry copy i ⟨2, 2147483647⟩ :: [] ∧ s.queue = []) ∧
    1 ≤ 3 ∧ 3 < idle.plat.nmod ∧
    (∃ x, (idle.plat.slot0 :: idle.plat.genuine)[3]? = some x) ∧
    (∃ x, (idle.plat.slot0 :: idle.plat.genuine)[0]? = some x) ∧
    (idle.plat.slot0 :: idle.plat.genuine)[4]? = none :=
  ⟨⟨rfl, by simp [launched]⟩, fun _ _ => ⟨rfl, rfl⟩, by decide, by decide, ⟨_, rfl⟩, ⟨_, rfl⟩, rfl⟩

theorem witness_StepKeepsMemoryForm :
    let s := launched [.lane 0 ⟨0, 0⟩]
    (∃ t, step s = .next t) ∧ s.mem.wf = true ∧ QueueOk s ∧ s.mem.inSpace = true :=
  ⟨⟨_, rfl⟩, by decide, queueOk_launched _, by decide⟩

theorem witness_StepKeepsQueueInvariant :
    QueueOk (halfway [.lane 0 ⟨2, 0⟩]) ∧ ∃ t, step (halfway [.lane 0 ⟨2, 0⟩]) = .next t :=
  ⟨queueOk_halfway _, _, rfl⟩

theorem witness_StepKeepsStoredResidues :
    QueueOk (halfway [.lane 0 ⟨2, 0⟩]) ∧ ResiduesStored (halfway [.lane 0 ⟨2, 0⟩]) ∧
      ∃ t, step (halfway [.lane 0 ⟨2, 0⟩]) = .next t :=
  ⟨queueOk_halfway _, residuesStored_halfway _, _, rfl⟩

/-- A step with a command in flight. -/
theorem witness_StepKeepsTheConfiguration :
    (∃ t, step (launched [.lane 0 ⟨0, 0⟩]) = .next t) ∧ (launched [.lane 0 ⟨0, 0⟩]).queue ≠ [] :=
  ⟨⟨_, rfl⟩, by simp [launched]⟩

/-- A register write, and RESET. -/
theorem witness_OnlyWritesAndResetChangeOperands :
    (∃ t, step (hosting idle (.regWrite 0x10 8 16)) = .next t ∧ t.count ≠ (hosting idle (.regWrite 0x10 8 16)).count) ∧
    (∃ t, step (launched [.reset]) = .next t ∧ t.accBase ≠ (launched [.reset]).accBase) :=
  ⟨⟨_, rfl, by simp [hosting, idle, State.reset]⟩, ⟨_, rfl, by simp [launched, ready]⟩⟩

/-- A residue byte that a lane changes, and a byte that the host stores. -/
theorem witness_ChangedBytesAreResiduesOrHostStores :
    (let s := launched [.lane 0 ⟨0, 0⟩]
     QueueOk s ∧ ∃ t, step s = .next t ∧ t.mem.read 0x2001 ≠ s.mem.read 0x2001) ∧
    (let s := hosting (launched []) (.memWrite 0x3000 [7#8])
     QueueOk s ∧ ∃ t, step s = .next t ∧ t.mem.read 0x3000 ≠ s.mem.read 0x3000) :=
  ⟨⟨queueOk_launched _, _, rfl, by decide⟩, queueOk_of_check rfl queueCheck_launched, _, rfl, by decide⟩

theorem witness_AccumulatorsAreImmutableInFlight :
    let s := launched [.lane 0 ⟨0, 0⟩]
    QueueOk s ∧ single (lanes4 0) ∈ s.queue ∧ (single (lanes4 0)).accExt.has 0x103F ∧ ∃ t, step s = .next t :=
  ⟨queueOk_launched _, by simp [launched], by decide, _, rfl⟩

/-- A store and a load of two bytes at the last address. -/
theorem witness_CoreRaisesNoException :
    (QueueOk (hosting idle (.memWrite 0xFFFFFFFFFFFFFFFF [1#8, 2#8])) ∧
      step (hosting idle (.memWrite 0xFFFFFFFFFFFFFFFF [1#8, 2#8])) = .fault .noSuchAddress) ∧
    (QueueOk (hosting idle (.memRead 0xFFFFFFFFFFFFFFFF 2)) ∧
      step (hosting idle (.memRead 0xFFFFFFFFFFFFFFFF 2)) = .fault .noSuchAddress) :=
  ⟨⟨queueOk_of_check rfl rfl, rfl⟩, queueOk_of_check rfl rfl, rfl⟩

/-- A pending lane, a finished record, and a run that does not stop. -/
theorem witness_LanesAndRetirementAlwaysProgress :
    (let s := launched [.lane 0 ⟨2, 0⟩]
     QueueOk s ∧ s.queue[0]? = some (single (lanes4 0)) ∧ (⟨2, 0⟩ : Coord) ∈ (single (lanes4 0)).pend ∧
      s.agenda = .lane 0 ⟨2, 0⟩ :: []) ∧
    (let s := finished [.retire 0]
     QueueOk s ∧ s.queue[0]? = some (single []) ∧ (single []).pend = [] ∧ s.agenda = .retire 0 :: []) ∧
    (∀ n : Nat, step ((fun _ => idle) n) = .next ((fun _ => idle) (n + 1))) :=
  ⟨⟨queueOk_launched _, rfl, by decide, rfl⟩, ⟨queueOk_finished _, rfl, rfl, rfl⟩, fun _ => rfl⟩

theorem witness_OnlyResetDiscardsACommand :
    (∃ t, step (launched [.lane 0 ⟨1, 0⟩]) = .next t) ∧ single (lanes4 0) ∈ (launched [.lane 0 ⟨1, 0⟩]).queue ∧
      (single (lanes4 0)).pend ≠ [] :=
  ⟨⟨_, rfl⟩, by simp [launched], by decide⟩

/-- Nothing enabled; lanes enabled, and CORE's step due; the host's step due. -/
theorem witness_FreeStepsAreTheEnabledOnes :
    (idle.agenda = [] ∧ enabledMoves idle = []) ∧
    (let s := launched []
     s.agenda = [] ∧ enabledMoves s ≠ [] ∧ s.turn.patience = 0 ∧ s.turn.hostDue = false ∧ s.queue ≠ []) ∧
    (let s : State := { launched [] with program := [.join], turn := ⟨true, 0⟩ }
     s.agenda = [] ∧ s.turn.patience = 0 ∧ s.turn.hostDue = true ∧ Move.host ∈ enabledMoves s) :=
  ⟨⟨rfl, rfl⟩, ⟨rfl, by decide, rfl, rfl, by simp [launched]⟩, rfl, rfl, rfl, by decide⟩

end Sys2Proof.Tests
end

section
/-! The statements of the scope family: what reset leaves (00_scope.md R6) and that the order of a command's lanes cannot be
seen in memory (R12). The idea of the second: a lane's stored byte is a function of the element it stands for and of memory
before any lane stepped, so the memory after several lanes depends on which lanes stepped and not on when. -/

namespace Sys2Proof.Machine

/-! ### Reset -/

/-- A machine is built with at most 65535 table entries (00_scope.md R6; log 10). -/
theorem nmod_boundedPlatform_le (p : Platform) : (boundedPlatform p).nmod ≤ 65535 := by
  have h : (p.genuine.take 65534).length ≤ 65534 := List.length_take_le _ _
  exact Nat.succ_le_succ h

/-- Settles O47: the fields by the definition of the reset state, the bound by the cut of its table. -/
theorem resetStateIsTheSpecs : Obligations.ResetStateIsTheSpecs :=
  ⟨rfl, rfl, rfl, rfl, rfl, nmod_boundedPlatform_le _⟩

/-! ### Usable indices draw nothing -/

/-- With a usable index the element operation ignores the free byte (40_reducer.md R109, R116). -/
theorem elemOp_free_irrelevant {p : Platform} {i : Nat} (h : p.ValidIndex i) (x : Word) (free free' : Byte) :
    elemOp p i x free = elemOp p i x free' := by
  unfold elemOp
  split
  · rfl
  · next hi =>
    obtain ⟨d, hd, hp, hinv⟩ := h.resolve_left hi
    have hdom : inDomain d.invp (d.p.setWidth 9) = true := by
      have hlt : d.p.toNat < 256 := d.p.isLt
      have hw : (d.p.setWidth 9).toNat = d.p.toNat := by rw [BitVec.toNat_setWidth]; omega
      simp only [inDomain, hw, decide_eq_true_eq]
      exact ⟨hp, hlt.le, hinv⟩
    simp [hd, reduce, hdom]

/-! ### What one lane does to memory -/

/-- Memory after the step of a lane, the draw counter being at `d` before it (41_single_converter.md R122, R126,
42_batched_converter.md R143). -/
def Command.laneMemory (c : Command) (p : Platform) (d : Nat) (m : Memory) (co : Coord) : Memory :=
  if active co.g c.n.toNat then
    vst4 m (c.storeAddr (c.laneOffset co) co.g)
      (elem4 p (c.laneIndex co) (vld4 m (c.loadAddr (c.laneOffset co) co.g)) d)
  else m

/-- The lane is active and `x` is one of the four addresses it stores to. -/
abbrev Command.LaneWrites (c : Command) (co : Coord) (x : Nat) : Prop :=
  active co.g c.n.toNat = true ∧
    c.storeAddr (c.laneOffset co) co.g ≤ x ∧ x < c.storeAddr (c.laneOffset co) co.g + 4

/-- The byte that the element operation gives for element `e` of the command's buffers (20_memory.md R60), where its index
is usable and no free byte is drawn. -/
def Command.elementByte (c : Command) (p : Platform) (m : Memory) (e : Nat) : Byte :=
  elemOp p (c.elementIndex e) (m.accRead (c.ab.toNat + 4 * e)) 0#8

theorem CommandOk.count_mod_four {p : Platform} {c : Command} (h : CommandOk p c) : c.n.toNat % 4 = 0 := by
  have := h.granularity
  omega

/-- The lane steps: its record loses the coordinate and memory becomes `laneMemory`. -/
theorem laneMove_eq {s : State} {pos : Nat} {c : Command} {co : Coord} (hc : s.queue[pos]? = some c)
    (hok : CommandOk s.plat c) (hco : co ∈ c.pend) :
    ∃ d, laneMove pos co s =
      .next { s.dropLane pos c co with mem := c.laneMemory s.plat s.draws s.mem co, draws := d } := by
  cases ha : active co.g c.n.toNat
  · refine ⟨s.draws, ?_⟩
    simp [laneMove, hc, hco, laneStep_eq, ha, Command.laneMemory, State.dropLane]
  · have hn := hok.count_mod_four
    have hload := (load_in_accExt hn (hok.pendInGrid co hco) ha (j := 15) (by omega)).2
    have hstore := (store_in_resExt hn (hok.pendInGrid co hco) ha (j := 3) (by omega)).2
    have hacc := hok.accFits
    have hres := hok.resFits
    refine ⟨s.draws + 4, ?_⟩
    rw [laneMove_active hc hco ha (by omega) (by omega)]
    simp [Command.laneMemory, ha]

/-- The step in which the agenda lets the lane move. -/
theorem step_lane {s : State} {pos : Nat} {c : Command} {co : Coord} (hc : s.queue[pos]? = some c)
    (hok : CommandOk s.plat c) (hco : co ∈ c.pend) (rest : List Move) :
    ∃ d, step { s with agenda := .lane pos co :: rest } =
      .next { s.dropLane pos c co with agenda := rest, mem := c.laneMemory s.plat s.draws s.mem co, draws := d } :=
  laneMove_eq (s := { s with agenda := rest }) hc hok hco

theorem wf_laneMemory (c : Command) (p : Platform) (d : Nat) (co : Coord) {m : Memory} (h : m.wf = true) :
    (c.laneMemory p d m co).wf = true := by
  unfold Command.laneMemory
  split
  · exact Memory.wf_storeBytes _ _ h
  · exact h

/-- The elements an active lane stands for have the index the lane applies (20_memory.md R54, R62). -/
theorem elementIndex_of_lane {c : Command} {co : Coord} {j : Nat} (hn : c.n.toNat % 4 = 0)
    (ha : active co.g c.n.toNat = true) (hj : j < 4) :
    c.elementIndex (c.laneOffset co + 4 * co.g + j) = c.laneIndex co := by
  simp only [active, decide_eq_true_eq] at ha
  unfold Command.elementIndex Command.laneOffset Command.laneIndex Command.subOffset
  cases c.op with
  | convert => rfl
  | convertBatched =>
    show (co.k * c.n.toNat + 4 * co.g + j) / c.n.toNat = co.k
    rw [Nat.add_assoc, Nat.add_comm, Nat.add_mul_div_right _ _ (by omega), Nat.div_eq_of_lt (by omega), Nat.zero_add]

/-- A lane with a usable index stores the bytes of its elements and changes no other byte, whatever is drawn. -/
theorem read_laneMemory {c : Command} {p : Platform} {co : Coord} (hn : c.n.toNat % 4 = 0)
    (hv : p.ValidIndex (c.laneIndex co)) (d : Nat) (m : Memory) (x : Nat) :
    (c.laneMemory p d m co).read x =
      if c.LaneWrites co x then c.elementByte p m (x - c.rb.toNat) else m.read x := by
  unfold Command.laneMemory
  split
  · next ha =>
    by_cases hx : c.storeAddr (c.laneOffset co) co.g ≤ x ∧ x < c.storeAddr (c.laneOffset co) co.g + 4
    · rw [if_pos ⟨ha, hx⟩]
      obtain ⟨j, rfl⟩ := Nat.exists_eq_add_of_le hx.1
      have hj : j < 4 := by omega
      have he : c.storeAddr (c.laneOffset co) co.g + j - c.rb.toNat = c.laneOffset co + 4 * co.g + j := by
        unfold Command.storeAddr; omega
      have hl : c.loadAddr (c.laneOffset co) co.g + 4 * j = c.ab.toNat + 4 * (c.laneOffset co + 4 * co.g + j) := by
        unfold Command.loadAddr; omega
      rw [read_vst4_in _ _ _ _ _ _ _ _ hj, he, Command.elementByte, elementIndex_of_lane hn ha hj, hl]
      exact elemOp_free_irrelevant hv _ _ _
    · rw [if_neg fun h => hx h.2, read_vst4_out _ _ _ _ _ _ _ _ hx]
  · next ha => rw [if_neg fun h => ha h.1]

/-! ### What several lanes of one command do to memory -/

section lanes
variable {p : Platform} {c : Command} (hok : CommandOk p c)
include hok

/-- The element of a byte that a lane stores is an element of the buffers (20_memory.md R62). -/
theorem lt_elements_of_laneWrites {co : Coord} {x : Nat} (hco : co ∈ c.pend) (hx : c.LaneWrites co x) :
    x - c.rb.toNat < c.elements := by
  obtain ⟨ha, hlo, hhi⟩ := hx
  have hn := hok.count_mod_four
  have := lane_within_elements hn (hok.pendInGrid co hco) ha
  unfold Command.storeAddr at hlo hhi
  omega

/-- A lane changes no accumulator byte, so it leaves every element's byte to be what it was (20_memory.md R61). -/
theorem elementByte_laneMemory {co : Coord} {e : Nat} (hco : co ∈ c.pend) (hv : p.ValidIndex (c.laneIndex co))
    (he : e < c.elements) (d : Nat) (m : Memory) :
    c.elementByte p (c.laneMemory p d m co) e = c.elementByte p m e := by
  have hn := hok.count_mod_four
  unfold Command.elementByte
  congr 1
  refine accRead_congr fun j hj => ?_
  rw [read_laneMemory hn hv, if_neg]
  rintro ⟨ha, hlo, hhi⟩
  have hres := store_in_resExt hn (hok.pendInGrid co hco) ha
    (j := c.ab.toNat + 4 * e + j - c.storeAddr (c.laneOffset co) co.g) (by omega)
  rw [Nat.add_sub_cancel' hlo] at hres
  exact hok.notInPlace _ ⟨⟨by simp only [Command.accExt]; omega, by simp only [Command.accExt]; omega⟩, hres⟩

/-- Memory after several lanes, byte by byte: the lanes' order does not occur in it (00_scope.md R12). -/
theorem read_foldl_laneMemory {l : List Coord} (hl : ∀ co ∈ l, co ∈ c.pend ∧ p.ValidIndex (c.laneIndex co)) (d : Nat)
    (m : Memory) (x : Nat) :
    (l.foldl (c.laneMemory p d) m).read x =
      if ∃ co ∈ l, c.LaneWrites co x then c.elementByte p m (x - c.rb.toNat) else m.read x := by
  have hn := hok.count_mod_four
  induction l generalizing m with
  | nil => simp
  | cons co l ih =>
    obtain ⟨⟨hco, hv⟩, hl'⟩ := List.forall_mem_cons.mp hl
    rw [List.foldl_cons, ih hl']
    by_cases hx : ∃ co' ∈ l, c.LaneWrites co' x
    · obtain ⟨co', hmem, hw⟩ := hx
      have he := lt_elements_of_laneWrites hok (hl' co' hmem).1 hw
      rw [if_pos ⟨co', hmem, hw⟩, if_pos ⟨co', List.mem_cons_of_mem _ hmem, hw⟩, elementByte_laneMemory hok hco hv he]
    · rw [if_neg hx, read_laneMemory hn hv]
      simp only [List.exists_mem_cons_iff, hx, or_false]

end lanes

theorem wf_foldl_laneMemory (c : Command) (p : Platform) (d : Nat) (l : List Coord) {m : Memory} (h : m.wf = true) :
    (l.foldl (c.laneMemory p d) m).wf = true := by
  induction l generalizing m with
  | nil => exact h
  | cons co l ih => exact ih (wf_laneMemory c p d co h)

/-- With a usable index the memory a lane leaves is the same data at every draw. -/
theorem laneMemory_draws_irrelevant {c : Command} {p : Platform} {co : Coord} (hv : p.ValidIndex (c.laneIndex co))
    (d d' : Nat) (m : Memory) : c.laneMemory p d m co = c.laneMemory p d' m co := by
  have h : ∀ v, elem4 p (c.laneIndex co) v d = elem4 p (c.laneIndex co) v d' := fun v => by
    unfold elem4
    congr 1
    funext j x
    exact elemOp_free_irrelevant hv _ _ _
  simp only [Command.laneMemory, h]

/-! ### Running the lanes -/

/-- The agenda runs all pending lanes of a record, each with a usable index: memory is what they leave one after another. -/
theorem mem_of_run_lanes {pos : Nat} {l : List Coord} {c : Command} {s t : State} {rest : List Move}
    (hc : s.queue[pos]? = some c) (hok : CommandOk s.plat c)
    (hv : ∀ co ∈ c.pend, s.plat.ValidIndex (c.laneIndex co)) (hl : l.Perm c.pend)
    (hrun : Sys2Proof.core.run l.length { s with agenda := l.map (.lane pos) ++ rest } = .next t) :
    t.mem = l.foldl (c.laneMemory s.plat 0) s.mem := by
  induction l generalizing s c with
  | nil => cases hrun; rfl
  | cons co l ih =>
    obtain ⟨hco, hl'⟩ := List.cons_perm_iff_perm_erase.mp hl
    obtain ⟨d, hstep⟩ := step_lane hc hok hco (l.map (.lane pos) ++ rest)
    rw [List.length_cons, run_succ, List.map_cons, List.cons_append, hstep] at hrun
    have hpos : pos < s.queue.length := (List.getElem?_eq_some_iff.mp hc).1
    have hmem := ih (s := { s.dropLane pos c co with mem := c.laneMemory s.plat s.draws s.mem co, draws := d })
      (List.getElem?_set_self hpos) (hok.erase_pend co) (fun co' h => hv co' (List.mem_of_mem_erase h)) hl' hrun
    rw [List.foldl_cons, laneMemory_draws_irrelevant (hv co hco) 0 s.draws]
    exact hmem

/-- Settles O39: both runs leave memory in canonical form, and byte by byte it is given by the set of the lanes alone. -/
theorem laneOrderIsUnobservable : Obligations.LaneOrderIsUnobservable := by
  intro s pos c l l' rest rest' t t' hq hwf hc hv hl hl' hrun hrun'
  have hok : CommandOk s.plat c := hq.records c (List.mem_of_getElem? hc)
  have hm : t.mem = l.foldl (c.laneMemory s.plat 0) s.mem := mem_of_run_lanes hc hok hv hl hrun
  have hm' : t'.mem = l'.foldl (c.laneMemory s.plat 0) s.mem := mem_of_run_lanes hc hok hv hl' hrun'
  have lanesOk : ∀ {k : List Coord}, k.Perm c.pend → ∀ co ∈ k, co ∈ c.pend ∧ s.plat.ValidIndex (c.laneIndex co) :=
    fun hk co h => ⟨hk.mem_iff.mp h, hv co (hk.mem_iff.mp h)⟩
  rw [hm, hm']
  refine Memory.eq_of_read (wf_foldl_laneMemory _ _ _ _ hwf) (wf_foldl_laneMemory _ _ _ _ hwf) fun x => ?_
  rw [read_foldl_laneMemory hok (lanesOk hl), read_foldl_laneMemory hok (lanesOk hl')]
  simp only [hl.mem_iff, hl'.mem_iff]

end Sys2Proof.Machine
end

section
/-! The statements of the state family on the queue and the register block (10_state.md). Each effect that a step can have
keeps the queue's invariant: a launch adds an admitted record, and a lane's step changes nothing of a record but its
pending lanes, on which no extent depends. -/

namespace Sys2Proof.Machine

/-! ### The queue's invariant -/

/-- An empty queue asks nothing of the machine (10_state.md R35). -/
theorem QueueOk.of_queue_nil {s : State} (h : s.queue = []) : QueueOk s where
  depth := by simp [h]
  records := by simp [h]
  disjoint := by simp [h]
  consistent := fun hne => absurd h hne

/-- An admitted launch into a queue with room keeps the queue's invariant (43_control.md R162, R163). -/
theorem QueueOk.enqueue_newCommand {s : State} {op : Op} {idx : Nat} {o : LaunchOperands} (hq : QueueOk s)
    (hroom : s.queueFull = false) (ha : Admitted s (newCommand s.plat op idx o)) :
    QueueOk (s.enqueue (newCommand s.plat op idx o)) where
  depth := by
    have hlt : ¬s.plat.nq ≤ s.queue.length := by simp [← queueFull_iff, hroom]
    rw [enqueue_queue, enqueue_plat, List.length_append, List.length_singleton]
    omega
  records := by
    rw [enqueue_queue]
    intro c hc
    rcases List.mem_append.mp hc with hc | hc
    · exact hq.records c hc
    · exact List.mem_singleton.mp hc ▸ commandOk_of_admitted ha
  disjoint := by
    refine List.pairwise_append.mpr ⟨hq.disjoint, List.pairwise_singleton _ _, fun d hd c hc => ?_⟩
    rw [List.mem_singleton.mp hc]
    exact Command.Disjoint.symm (ha.notOverlapping d hd)
  consistent := fun _ => ha.tableConsistent

/-- Which bytes two records share does not depend on their pending lanes. -/
theorem pairwise_disjoint_set_pend {q : List Command} {pos : Nat} {c : Command} (h : q.Pairwise Command.Disjoint)
    (hc : q[pos]? = some c) (l : List Coord) : (q.set pos { c with pend := l }).Pairwise Command.Disjoint := by
  obtain ⟨hpos, rfl⟩ := List.getElem?_eq_some_iff.mp hc
  rw [List.pairwise_iff_getElem] at h ⊢
  intro i j hi hj hij
  have hij' := h i j (by simpa using hi) (by simpa using hj) hij
  simp only [List.getElem_set]
  split <;> split
  all_goals subst_vars; exact hij'

/-- A lane's step keeps the queue's invariant (41_single_converter.md R126). -/
theorem QueueOk.dropLane {s : State} {pos : Nat} {c : Command} (hq : QueueOk s) (hc : s.queue[pos]? = some c)
    (co : Coord) : QueueOk (s.dropLane pos c co) where
  depth := by simpa using hq.depth
  records := by
    intro d hd
    rcases List.mem_or_eq_of_mem_set hd with hd | rfl
    · exact hq.records d hd
    · exact (hq.records c (List.mem_of_getElem? hc)).erase_pend co
  disjoint := pairwise_disjoint_set_pend hq.disjoint hc _
  consistent := fun _ => hq.consistent (List.ne_nil_of_mem (List.mem_of_getElem? hc))

/-- Retirement keeps the queue's invariant (43_control.md R167). -/
theorem QueueOk.retire {s : State} (hq : QueueOk s) (pos : Nat) (c : Command) : QueueOk (s.retire pos c) where
  depth := (List.length_eraseIdx_le _ _).trans hq.depth
  records := fun d hd => hq.records d (List.mem_of_mem_eraseIdx hd)
  disjoint := hq.disjoint.sublist (List.eraseIdx_sublist _ _)
  consistent := fun hne => hq.consistent fun h => hne (by simp [h])

/-- Settles O50: each effect that a step can have keeps the invariant. -/
theorem stepKeepsQueueInvariant : Obligations.StepKeepsQueueInvariant := by
  intro s t hq hstep
  cases step_effect hstep with
  | quiet q _ p => exact hq.of_same q p
  | launched op idx o hroom ha q _ p => exact (hq.enqueue_newCommand hroom ha).of_same q p
  | hostStored _ _ _ _ q _ p => exact hq.of_same q p
  | inert pos c co hc _ _ q _ p => exact (hq.dropLane hc co).of_same q p
  | lane pos c co _ hc _ _ q _ _ _ p => exact (hq.dropLane hc co).of_same q p
  | retired pos c _ _ q _ p => exact (hq.retire pos c).of_same q p
  | reset _ q _ _ => exact .of_queue_nil q
  | loaded _ _ _ hidle q _ _ => exact .of_queue_nil (q.trans hidle)

/-- Settles O52: after reset no command is in flight and no byte is listed. -/
theorem resetMeetsTheInvariants : Obligations.ResetMeetsTheInvariants :=
  ⟨.of_queue_nil rfl, ⟨rfl, rfl⟩, fun _ hc => absurd hc List.not_mem_nil⟩

/-! ### The register block -/

/-- Settles O7: the three offsets name the three operand registers. -/
theorem registerWriteSetsOneRegister : Obligations.RegisterWriteSetsOneRegister :=
  fun _ _ _ _ => ⟨step_of_hostIsNext, step_of_hostIsNext, step_of_hostIsNext⟩

/-- Settles O9: `CMD` has no value to read, and `STATUS` none to write. -/
theorem cmdReadsZeroStatusIgnoresWrites : Obligations.CmdReadsZeroStatusIgnoresWrites := by
  refine fun s rest v prog => ⟨fun h => ?_, fun h => ?_⟩
  · rw [step_of_hostIsNext h]
    simp [hostAction, regRead, regAt, h.2.1]
  · rw [step_of_hostIsNext h]; rfl

theorem busy_iff (s : State) : s.busy = true ↔ s.queue ≠ [] := by
  simp [State.busy]

/-- Settles O11: the read is that of the register at 0x1C, whose value and whose effect on the list both follow `BUSY`. -/
theorem statusReadsBusy : Obligations.StatusReadsBusy := by
  intro s rest prog h
  obtain ⟨_, hheld, _⟩ := id h
  refine ⟨readStatus { s with agenda := rest, program := prog }, step_of_hostIsNext h, ?_⟩
  simp [statusWord_eq, busy_iff, hheld]

/-- A read is answered where it reaches a register (10_state.md R29). -/
theorem regRead_eq_next_iff (offset width : Nat) (s : State) :
    (∃ t, regRead offset width s = .next t) ↔ regAt offset width ≠ none := by
  unfold regRead
  cases regAt offset width with
  | none => simp
  | some r => cases r <;> simp

/-- Settles O10: both accesses look up the register, and an access that reaches none is refused. -/
theorem onlyWholeRegisterAccesses : Obligations.OnlyWholeRegisterAccesses := by
  intro s rest v prog offset width
  refine ⟨fun h hno => ?_, fun h => ⟨?_, fun hno => ?_⟩⟩
  · rw [step_of_hostIsNext h, hostAction, regWrite, (regAt_eq_none_iff _ _).mpr hno]
  · rw [step_of_hostIsNext h, hostAction, regRead_eq_next_iff, ne_eq, regAt_eq_none_iff, not_not]
  · rw [step_of_hostIsNext h, hostAction, regRead, (regAt_eq_none_iff _ _).mpr hno]

/-- Settles O18: the queue holds the new record, or it is full, and it has at least one place (00_scope.md R6). -/
theorem statusIsBusyAfterALaunch : Obligations.StatusIsBusyAfterALaunch := by
  intro i s t h
  rw [exec_eq_launch] at h
  rw [statusWord_eq, if_neg]
  rcases launch_cases (encode i) (opOf i) (indexOf i) s with ⟨hfull, h'⟩ | ⟨_, r, h'⟩ | ⟨_, o, _, _, h'⟩ <;>
    rw [h'] at h <;> cases h
  · rw [queueFull_iff] at hfull
    have hpos : 0 < s.plat.nq := Nat.succ_pos _
    exact List.ne_nil_of_length_pos (by rw [hold_queue]; omega)
  · simp

end Sys2Proof.Machine
end

section
/-! The statements of the state family on what a step may change: operand registers, records in flight and bytes of memory
(10_state.md R23, R36, R37). `Effect` does not name the mover, so the step is taken apart by its mover here. -/

namespace Sys2Proof.Machine

/-! ### What the host's step can do -/

/-- The operand registers of two states agree (10_state.md R21). -/
structure SameOperands (s t : State) : Prop where
  accBase : t.accBase = s.accBase
  resBase : t.resBase = s.resBase
  count : t.count = s.count

/-- What the host's step did to the operand registers, to memory and to the queue. -/
inductive HostEffect (s t : State) : Prop where
  /-- A write of 8 bytes to the register block (43_control.md R160). -/
  | registerWritten (offset : Nat) (v : DWord) (prog : List HostAction) (hheld : s.heldWrite = none)
      (hprog : s.program = .regWrite offset 8 v :: prog) (hm : t.mem = s.mem) (hq : t.queue = s.queue)
  /-- A store to bytes that the host owns (20_memory.md R70). -/
  | stored (addr : DWord) (bytes : List Byte) (prog : List HostAction) (hheld : s.heldWrite = none)
      (hprog : s.program = .memWrite addr bytes :: prog)
      (hfree : s.hostRaces ⟨addr.toNat, addr.toNat + bytes.length⟩ = false)
      (ho : SameOperands s t) (hm : t.mem = s.mem.storeBytes addr.toNat bytes) (hq : t.queue = s.queue)
  /-- Any other action, or a write to `CMD`, which can only add a record (43_control.md R163). -/
  | other (ho : SameOperands s t) (hm : t.mem = s.mem) (hq : s.queue <+: t.queue)

/-- A write to `CMD` that is answered holds, or appends a record (43_control.md R163, R166). -/
theorem writeCmd_cases {w : Word} {s t : State} (h : writeCmd w s = .next t) :
    (∃ w', t = s.hold w') ∨ ∃ c, t = s.enqueue c := by
  unfold writeCmd at h
  split at h
  · next i _ =>
    rw [exec_eq_launch] at h
    rcases launch_cases (encode i) (opOf i) (indexOf i) s with ⟨_, h'⟩ | ⟨_, r, h'⟩ | ⟨_, o, _, _, h'⟩ <;>
      rw [h'] at h <;> cases h
    · exact .inl ⟨_, rfl⟩
    · exact .inr ⟨_, rfl⟩
  · split at h <;> cases h
    exact .inl ⟨w, rfl⟩

theorem writeCmd_keeps {w : Word} {s t : State} (h : writeCmd w s = .next t) :
    SameOperands s t ∧ t.mem = s.mem ∧ s.queue <+: t.queue := by
  rcases writeCmd_cases h with ⟨w', rfl⟩ | ⟨c, rfl⟩
  · exact ⟨⟨rfl, rfl, rfl⟩, rfl, List.prefix_refl _⟩
  · exact ⟨⟨rfl, rfl, rfl⟩, rfl, List.prefix_append _ _⟩

/-- The operand registers are 8 bytes wide (10_state.md R29). -/
theorem width_of_operandRegister {offset width : Nat} {r : RegName} (h : regAt offset width = some r) (hcmd : r ≠ .cmd)
    (hstatus : r ≠ .status) : width = 8 := by
  unfold regAt at h
  split_ifs at h <;> simp_all

theorem hostAction_hostEffect {a : HostAction} {prog : List HostAction} {s t : State} (hheld : s.heldWrite = none)
    (hprog : s.program = a :: prog) (h : hostAction a { s with program := prog } = .next t) : HostEffect s t := by
  cases a with
  | regWrite offset width v =>
    simp only [hostAction, regWrite] at h
    cases hr : regAt offset width with
    | none => simp [hr] at h
    | some r =>
      rw [hr] at h
      cases r with
      | cmd =>
        obtain ⟨⟨ha, hb, hn⟩, hm, hq⟩ := writeCmd_keeps h
        exact .other ⟨ha, hb, hn⟩ hm hq
      | status => cases h; exact .other ⟨rfl, rfl, rfl⟩ rfl (List.prefix_refl _)
      | _ =>
        obtain rfl : width = 8 := width_of_operandRegister hr (by decide) (by decide)
        cases h
        exact .registerWritten offset v prog hheld hprog rfl rfl
  | regRead offset width =>
    simp only [hostAction, regRead] at h
    split at h <;> cases h <;> exact .other ⟨by simp, by simp, by simp⟩ (by simp) (by simp)
  | join => cases h; exact .other ⟨rfl, rfl, rfl⟩ rfl (List.prefix_refl _)
  | memWrite addr bytes =>
    simp only [hostAction, memWrite] at h
    split_ifs at h with _ hrace
    cases h
    exact .stored addr bytes prog hheld hprog (Bool.eq_false_of_not_eq_true hrace) ⟨rfl, rfl, rfl⟩ rfl rfl
  | memRead addr len =>
    simp only [hostAction, memRead] at h
    split_ifs at h
    cases h
    exact .other ⟨rfl, rfl, rfl⟩ rfl (List.prefix_refl _)

theorem hostStep_hostEffect {s t : State} (h : hostStep s = .next t) : HostEffect s t := by
  unfold hostStep at h
  split at h
  · obtain ⟨⟨ha, hb, hn⟩, hm, hq⟩ := writeCmd_keeps h
    exact .other ⟨ha, hb, hn⟩ hm hq
  · next hheld =>
    split at h
    · cases h; exact .other ⟨rfl, rfl, rfl⟩ rfl (List.prefix_refl _)
    · next hprog => exact hostAction_hostEffect hheld hprog h

/-! ### What the other movers can do -/

/-- A lane's move is a stutter, or the step of a pending lane (43_control.md R170; log 14). -/
theorem laneMove_cases {pos : Nat} {co : Coord} {s t : State} (h : laneMove pos co s = .next t) :
    t = s ∨ ∃ c d, s.queue[pos]? = some c ∧ co ∈ c.pend ∧
      t = { s.dropLane pos c co with mem := c.laneMemory s.plat s.draws s.mem co, draws := d } := by
  unfold laneMove at h
  split at h
  · next c hc =>
    split at h
    · next hco =>
      refine .inr ⟨c, ?_⟩
      rw [laneStep_eq] at h
      split at h
      · next hact =>
        unfold groupStep at h
        split at h <;> cases h
        exact ⟨s.draws + 4, hc, hco, by simp [Command.laneMemory, hact]⟩
      · next hact =>
        cases h
        exact ⟨s.draws, hc, hco, by simp [Command.laneMemory, hact, State.dropLane]⟩
    · cases h; exact .inl rfl
  · cases h; exact .inl rfl

/-- A retirement is a stutter, or removes a finished record (43_control.md R167; log 14). -/
theorem retireMove_cases {pos : Nat} {s t : State} (h : retireMove pos s = .next t) :
    t = s ∨ ∃ c, s.queue[pos]? = some c ∧ c.pend = [] ∧ t = s.retire pos c := by
  unfold retireMove at h
  split at h
  · next c hc =>
    split at h
    · next hpend => cases h; exact .inr ⟨c, hc, hpend, rfl⟩
    · cases h; exact .inl rfl
  · cases h; exact .inl rfl

/-- A table load that is answered finds the queue empty (10_state.md R34). -/
theorem loadMove_cases {copy : TableCopy} {i : Nat} {d : Descriptor} {s t : State}
    (h : loadMove copy i d s = .next t) : s.queue = [] ∧ t = { s with plat := s.plat.setEntry copy d i } := by
  unfold loadMove at h
  split at h
  · cases h
  · next hidle => cases h; exact ⟨by simpa [State.busy] using hidle, rfl⟩

/-! ### Which mover a step has -/

theorem nextMove_of_agenda {s : State} {mv : Move} {rest : List Move} (h : s.agenda = mv :: rest) :
    nextMove s = some mv := by
  simp [nextMove, h]

theorem nextMove_of_no_agenda {s : State} (h : s.agenda = []) : nextMove s = freeMove s := by
  simp [nextMove, h]

/-- A step is idle, or the move of the mover that the agenda or the free choice names (43_control.md R170). -/
theorem step_by_mover {s t : State} (h : step s = .next t) :
    t = s ∨ ∃ mv a d u, nextMove s = some mv ∧ takeMove mv { s with agenda := a, draws := d, turn := u } = .next t := by
  unfold step advance at h
  split at h
  · next mv rest hag => exact .inr ⟨mv, rest, s.draws, s.turn, nextMove_of_agenda hag, h⟩
  · next hag =>
    split at h
    · next mv hmv =>
      exact .inr ⟨mv, s.agenda, s.passTurn.draws, s.passTurn.turn, (nextMove_of_no_agenda hag).trans hmv, h⟩
    · cases h; exact .inl rfl

/-- RESET is no enabled step: its cause is outside CORE and the host (70_reset_and_hazards.md R200; log 5). -/
theorem reset_not_mem_enabledMoves (s : State) : Move.reset ∉ enabledMoves s := by
  intro h
  rcases List.mem_append.mp h with h | h
  · unfold hostMoves at h
    split at h <;> split at h <;> simp at h
  · obtain ⟨pos, c, _, h⟩ := (mem_coreMoves _ _).mp h
    unfold recordMoves at h
    split at h <;> simp at h

/-- RESET comes through the agenda only. -/
theorem agenda_of_nextMove_reset {s : State} (h : nextMove s = some .reset) : ∃ rest, s.agenda = .reset :: rest := by
  cases hag : s.agenda with
  | nil => exact absurd (freeMove_mem (nextMove_of_no_agenda hag ▸ h)) (reset_not_mem_enabledMoves s)
  | cons mv rest =>
    obtain rfl : mv = .reset := Option.some.inj ((nextMove_of_agenda hag).symm.trans h)
    exact ⟨rest, rfl⟩

/-! ### Operand registers -/

/-- Settles O54: of the movers, the host alone reaches the operand registers besides RESET, by a register write. -/
theorem onlyWritesAndResetChangeOperands : Obligations.OnlyWritesAndResetChangeOperands := by
  intro s t hstep hchange
  have hno : ¬SameOperands s t := fun ⟨ha, hb, hn⟩ => by simp [ha, hb, hn] at hchange
  rcases step_by_mover hstep with rfl | ⟨mv, a, d, u, hmv, h⟩
  · exact absurd ⟨rfl, rfl, rfl⟩ hno
  cases mv with
  | host =>
    cases hostStep_hostEffect h with
    | registerWritten offset v prog hheld hprog => exact .inr ⟨offset, v, prog, hheld, hprog⟩
    | stored _ _ _ _ _ _ ho => exact absurd ⟨ho.accBase, ho.resBase, ho.count⟩ hno
    | other ho => exact absurd ⟨ho.accBase, ho.resBase, ho.count⟩ hno
  | lane pos co =>
    rcases laneMove_cases h with rfl | ⟨c, d, _, _, rfl⟩ <;> exact absurd ⟨rfl, rfl, rfl⟩ hno
  | retire pos =>
    rcases retireMove_cases h with rfl | ⟨c, _, _, rfl⟩ <;> exact absurd ⟨rfl, rfl, rfl⟩ hno
  | reset => exact .inl (agenda_of_nextMove_reset hmv)
  | loadEntry copy i d =>
    obtain ⟨_, rfl⟩ := loadMove_cases h
    exact absurd ⟨rfl, rfl, rfl⟩ hno

/-! ### Records in flight -/

/-- What every step but RESET leaves of a record with lanes pending: the record, with no more lanes pending (R88). -/
def Command.StandsIn (c : Command) (q : List Command) : Prop :=
  ∃ c' ∈ q, c' = { c with pend := c'.pend } ∧ ∀ co ∈ c'.pend, co ∈ c.pend

theorem Command.StandsIn.of_mem {c : Command} {q : List Command} (h : c ∈ q) : c.StandsIn q :=
  ⟨c, h, rfl, fun _ hco => hco⟩

/-- A lane's step leaves every record, its own with one lane less (41_single_converter.md R126). -/
theorem Command.standsIn_dropLane {s : State} {c d : Command} {pos : Nat} (hc : c ∈ s.queue)
    (hd : s.queue[pos]? = some d) (co : Coord) : c.StandsIn (s.dropLane pos d co).queue := by
  obtain ⟨i, hi⟩ := List.mem_iff_getElem?.mp hc
  rw [dropLane_queue]
  by_cases hip : pos = i
  · subst hip
    obtain rfl : d = c := Option.some.inj (hd.symm.trans hi)
    have hlt := (List.getElem?_eq_some_iff.mp hd).1
    exact ⟨_, List.mem_set hlt _, rfl, fun _ => List.mem_of_mem_erase⟩
  · exact .of_mem (List.mem_of_getElem? ((List.getElem?_set_ne hip).trans hi))

/-- Retirement leaves every record that is not finished (43_control.md R167). -/
theorem Command.standsIn_retire {s : State} {c d : Command} {pos : Nat} (hc : c ∈ s.queue) (hpend : c.pend ≠ [])
    (hd : s.queue[pos]? = some d) (hfin : d.pend = []) : c.StandsIn (s.retire pos d).queue := by
  obtain ⟨i, hi⟩ := List.mem_iff_getElem?.mp hc
  have hip : i ≠ pos := by
    rintro rfl
    exact hpend (Option.some.inj (hi.symm.trans hd) ▸ hfin)
  exact .of_mem (List.mem_eraseIdx_iff_getElem?.mpr ⟨i, hip, hi⟩)

/-- Settles O59: a launch adds behind it, a lane's step erases a coordinate, and a retirement takes a finished record. -/
theorem onlyResetDiscardsACommand : Obligations.OnlyResetDiscardsACommand := by
  intro s t c hstep hc hpend
  change (∃ rest, s.agenda = .reset :: rest) ∨ c.StandsIn t.queue
  rcases step_by_mover hstep with rfl | ⟨mv, a, d, u, hmv, h⟩
  · exact .inr (.of_mem hc)
  cases mv with
  | host =>
    cases hostStep_hostEffect h with
    | registerWritten _ _ _ _ _ _ hq => exact .inr (.of_mem (hq ▸ hc))
    | stored _ _ _ _ _ _ _ _ hq => exact .inr (.of_mem (hq ▸ hc))
    | other _ _ hq => exact .inr (.of_mem (hq.subset hc))
  | lane pos co =>
    rcases laneMove_cases h with rfl | ⟨d, _, hd, _, rfl⟩
    · exact .inr (.of_mem hc)
    · exact .inr (Command.standsIn_dropLane hc hd co)
  | retire pos =>
    rcases retireMove_cases h with rfl | ⟨d, hd, hfin, rfl⟩
    · exact .inr (.of_mem hc)
    · exact .inr (Command.standsIn_retire hc hpend hd hfin)
  | reset => exact .inl (agenda_of_nextMove_reset hmv)
  | loadEntry copy i d =>
    obtain ⟨_, rfl⟩ := loadMove_cases h
    exact .inr (.of_mem hc)

/-- Settles O25: the grid has no coordinate twice, so erasing one leaves none of it and all the others. -/
theorem laneStepsOnce : Obligations.LaneStepsOnce := by
  intro s t rest pos c co hq hag hc hco hstep
  have hok : CommandOk s.plat c := hq.records c (List.mem_of_getElem? hc)
  obtain ⟨d, hlane⟩ := laneMove_eq (s := { s with agenda := rest }) hc hok hco
  rw [step_of_agenda hag, takeMove, hlane] at hstep
  cases hstep
  have hpos : pos < s.queue.length := (List.getElem?_eq_some_iff.mp hc).1
  refine ⟨{ c with pend := c.pend.erase co }, List.getElem?_set_self hpos, ?_, fun x hx => ?_, rfl⟩
  · simp [hok.pendNodup.mem_erase_iff]
  · exact List.mem_erase_of_ne hx

/-! ### Bytes of memory -/

/-- A lane's step changes bytes of its record's residue extent only (41_single_converter.md R129). -/
theorem resExt_has_of_laneMemory_changes {p p' : Platform} {c : Command} {co : Coord} {d a : Nat} {m : Memory}
    (hok : CommandOk p c) (hco : co ∈ c.pend) (h : (c.laneMemory p' d m co).read a ≠ m.read a) : c.resExt.has a := by
  unfold Command.laneMemory at h
  split at h
  · next hact =>
    have hin := not_imp_comm.mp (read_vst4_out _ _ _ _ _ _ _ _) h
    obtain ⟨j, rfl⟩ := Nat.exists_eq_add_of_le hin.1
    exact store_in_resExt hok.count_mod_four (hok.pendInGrid co hco) hact (by omega)
  · exact absurd rfl h

/-- Settles O26: the lane steps only if it is pending, and then it stores four bytes of the residue extent. -/
theorem laneWritesItsResidueExtentOnly : Obligations.LaneWritesItsResidueExtentOnly := by
  intro s t rest pos co a hq hag hstep hne
  rw [step_of_agenda hag] at hstep
  rcases laneMove_cases hstep with rfl | ⟨c, d, hc, hco, rfl⟩
  · exact absurd rfl hne
  · exact ⟨c, hc, hco, resExt_has_of_laneMemory_changes (hq.records c (List.mem_of_getElem? hc)) hco hne⟩

/-- A byte that a step changes is a residue byte in flight, or the host stores it and owns it (10_state.md R23). -/
theorem byte_changed_by_step {s t : State} {a : Nat} (hq : QueueOk s) (hstep : step s = .next t)
    (hne : t.mem.read a ≠ s.mem.read a) :
    (∃ c ∈ s.queue, c.resExt.has a) ∨
    (∃ addr bytes prog, s.heldWrite = none ∧ s.program = .memWrite addr bytes :: prog ∧
      (⟨addr.toNat, addr.toNat + bytes.length⟩ : Extent).has a ∧
      s.hostRaces ⟨addr.toNat, addr.toNat + bytes.length⟩ = false) := by
  rcases step_by_mover hstep with rfl | ⟨mv, ag, d, u, _, h⟩
  · exact absurd rfl hne
  cases mv with
  | host =>
    cases hostStep_hostEffect h with
    | registerWritten _ _ _ _ _ hm => exact absurd (congrArg (·.read a) hm) hne
    | stored addr bytes prog hheld hprog hfree _ hm =>
      rw [hm] at hne
      exact .inr ⟨addr, bytes, prog, hheld, hprog, not_imp_comm.mp (Memory.read_storeBytes_out _ _ _ _) hne, hfree⟩
    | other _ hm => exact absurd (congrArg (·.read a) hm) hne
  | lane pos co =>
    rcases laneMove_cases h with rfl | ⟨c, _, hc, hco, rfl⟩
    · exact absurd rfl hne
    · have hmem : c ∈ s.queue := List.mem_of_getElem? hc
      exact .inl ⟨c, hmem, resExt_has_of_laneMemory_changes (hq.records c hmem) hco hne⟩
  | retire pos =>
    rcases retireMove_cases h with rfl | ⟨c, _, _, rfl⟩ <;> exact absurd rfl hne
  | reset =>
    cases h
    by_contra hno
    exact hne (read_scramble_out _ _ _ _ fun c hc hin => hno (.inl ⟨c, hc, hin⟩))
  | loadEntry copy i d =>
    obtain ⟨_, rfl⟩ := loadMove_cases h
    exact absurd rfl hne

/-- Settles O55: the two ways in which a byte changes. -/
theorem changedBytesAreResiduesOrHostStores : Obligations.ChangedBytesAreResiduesOrHostStores := by
  intro s t a hq hstep hne
  rcases byte_changed_by_step hq hstep hne with h | ⟨addr, bytes, prog, hheld, hprog, ⟨hlo, hhi⟩, _⟩
  · exact .inl h
  · exact .inr ⟨addr, bytes, prog, hheld, hprog, hlo, hhi⟩

/-- An accumulator byte of a record in flight is a residue byte of none (20_memory.md R61, R64). -/
theorem QueueOk.accExt_not_resExt {s : State} (hq : QueueOk s) {c d : Command} (hc : c ∈ s.queue) (hd : d ∈ s.queue)
    {a : Nat} (ha : c.accExt.has a) : ¬d.resExt.has a := by
  intro hres
  by_cases hcd : c = d
  · subst hcd
    exact (hq.records c hc).notInPlace a ⟨ha, hres⟩
  · exact hq.disjoint_of_ne hc hd hcd a ⟨.inl ha, .inr hres⟩

/-- Settles O56: an accumulator byte in flight is no residue byte in flight, and a host store to it would race. -/
theorem accumulatorsAreImmutableInFlight : Obligations.AccumulatorsAreImmutableInFlight := by
  intro s t c a hq hc ha hstep
  by_contra hne
  rcases byte_changed_by_step hq hstep hne with ⟨d, hd, hres⟩ | ⟨addr, bytes, _, _, _, hin, hfree⟩
  · exact hq.accExt_not_resExt hc hd ha hres
  · have hraces := (hostRaces_iff s _).mpr ⟨a, hin, c, List.mem_append_left _ hc, .inl ha⟩
    simp [hfree] at hraces

end Sys2Proof.Machine
end

section
/-! The statements of the state family on the configuration and the table (10_state.md R30 to R34, R39). -/

namespace Sys2Proof.Machine

/-! ### The table and the parameters of a run -/

theorem sameParameters_refl (p : Platform) : sameParameters p p := ⟨rfl, rfl, rfl, rfl, rfl⟩

/-- A table load keeps every parameter of the run (10_state.md R39). -/
theorem sameParameters_setEntry (p : Platform) (copy : TableCopy) (d : Descriptor) (i : Nat) :
    sameParameters p (p.setEntry copy d i) := by
  refine ⟨setEntry_nmod p copy d i, ?_⟩
  cases i <;> exact ⟨rfl, rfl, rfl, rfl⟩

/-- Settles O53: a table load alone touches the platform, and it finds no command in flight (10_state.md R34). -/
theorem stepKeepsTheConfiguration : Obligations.StepKeepsTheConfiguration := by
  intro s t hstep
  have same : t.plat = s.plat → sameParameters s.plat t.plat ∧ (s.queue ≠ [] → t.plat = s.plat) :=
    fun hp => ⟨hp ▸ sameParameters_refl _, fun _ => hp⟩
  cases step_effect hstep with
  | quiet _ _ hp => exact same hp
  | launched _ _ _ _ _ _ _ hp => exact same hp
  | hostStored _ _ _ _ _ _ hp => exact same hp
  | inert _ _ _ _ _ _ _ _ hp => exact same hp
  | lane _ _ _ _ _ _ _ _ _ _ _ hp => exact same hp
  | retired _ _ _ _ _ _ hp => exact same hp
  | reset _ _ _ hp => exact same hp
  | loaded copy i d hidle _ _ hp => exact ⟨hp ▸ sameParameters_setEntry _ _ _ _, fun hne => absurd hidle hne⟩

/-- The whole table after a load: the entry of that index alone is rewritten, where there is one (10_state.md R34). -/
theorem table_setEntry (p : Platform) (copy : TableCopy) (d : Descriptor) (i : Nat) :
    (p.setEntry copy d i).slot0 :: (p.setEntry copy d i).genuine =
      (p.slot0 :: p.genuine).modify i (fun x => x.set d copy) := by
  cases i <;> rfl

/-- Lanes read the device copy of the entry (10_state.md R30, R33; log 9). -/
theorem lookup_eq_device (p : Platform) {i : Nat} (hi : i ≠ 0) :
    p.lookup i = (p.slot0 :: p.genuine)[i]?.map TableSlot.device := by
  obtain ⟨j, rfl⟩ := Nat.exists_eq_succ_of_ne_zero hi
  rfl

theorem table_setEntry_ne (p : Platform) (copy : TableCopy) (d : Descriptor) {i j : Nat} (h : j ≠ i) :
    ((p.setEntry copy d i).slot0 :: (p.setEntry copy d i).genuine)[j]? = (p.slot0 :: p.genuine)[j]? := by
  rw [table_setEntry, List.getElem?_modify_ne _ _ h.symm]

theorem table_setEntry_self (p : Platform) (copy : TableCopy) (d : Descriptor) (i : Nat) :
    ((p.setEntry copy d i).slot0 :: (p.setEntry copy d i).genuine)[i]? =
      (p.slot0 :: p.genuine)[i]?.map (fun x => x.set d copy) := by
  rw [table_setEntry, List.getElem?_modify_eq]
  rfl

theorem lookup_setEntry_ne (p : Platform) (copy : TableCopy) (d : Descriptor) {i j : Nat} (h : j ≠ i) :
    (p.setEntry copy d i).lookup j = p.lookup j := by
  by_cases hj : j = 0
  · subst hj; rfl
  · rw [lookup_eq_device _ hj, lookup_eq_device _ hj, table_setEntry_ne _ _ _ h]

theorem lookup_setEntry_device (p : Platform) (d : Descriptor) {i : Nat} (hi : i ≠ 0) (hn : i < p.nmod) :
    (p.setEntry .device d i).lookup i = some d := by
  have hlt : i < (p.slot0 :: p.genuine).length := hn
  rw [lookup_eq_device _ hi, table_setEntry_self, List.getElem?_eq_getElem hlt]
  rfl

/-- A load of the host copy is not seen by lanes (log 9). -/
theorem lookup_setEntry_host (p : Platform) (d : Descriptor) (i : Nat) :
    (p.setEntry .host d i).lookup i = p.lookup i := by
  by_cases hi : i = 0
  · subst hi; rfl
  · rw [lookup_eq_device _ hi, lookup_eq_device _ hi, table_setEntry_self, Option.map_map]
    rfl

/-- Settles O48: the load modifies one place of the table, and what it writes there is one copy. -/
theorem tableLoadsOnlyWhileIdle : Obligations.TableLoadsOnlyWhileIdle := by
  intro s rest copy i d hag
  rw [step_of_agenda hag, takeMove, loadMove]
  refine ⟨fun hne => if_pos ((busy_iff _).mpr hne), fun hidle => ⟨s.plat.setEntry copy d i, ?_, ?_, ?_, ?_, ?_, ?_, ?_⟩⟩
  · exact if_neg fun hb => (busy_iff _).mp hb hidle
  · exact sameParameters_setEntry _ _ _ _
  · exact fun j hj => table_setEntry_ne _ _ _ hj
  · intro x hx
    rw [table_setEntry_self, hx]
    cases copy <;> rfl
  · exact fun j hj => lookup_setEntry_ne _ _ _ hj
  · rintro rfl hi hn
    exact lookup_setEntry_device _ _ (by omega) hn
  · rintro rfl
    exact lookup_setEntry_host _ _ _

end Sys2Proof.Machine
end

section
/-! The element operation gives the floored residue (40_reducer.md R100 to R117): the quotient estimate leaves a candidate
within one modulus of `[0, p)`, and CORR brings it there. -/

namespace Sys2Proof.Machine

/-- The high half of a 64-bit pattern is the floored quotient by 2^32 (40_reducer.md R102). -/
theorem toInt_highHalf (x : BitVec 64) : (x.extractLsb' 32 32).toInt = x.toInt / 2 ^ 32 := by
  have hx := x.isLt
  have hhi : (x.extractLsb' 32 32).toNat = x.toNat / 2 ^ 32 := by
    rw [BitVec.extractLsb'_toNat, Nat.shiftRight_eq_div_pow]
    omega
  rw [BitVec.toInt_eq_toNat_cond, BitVec.toInt_eq_toNat_cond, hhi]
  split <;> split <;> omega

/-- MULHI is the floor of the exact product over 2^32 (40_reducer.md R102). -/
theorem mulhi_toInt (x r : Word) : (mulhi x r).toInt = x.toInt * r.toInt / 2 ^ 32 := by
  obtain ⟨hlo, hhi⟩ := mul_toInt_bounds x r
  have hprod : ((x.signExtend 64) * (r.signExtend 64)).toInt = x.toInt * r.toInt := by
    rw [BitVec.toInt_mul, BitVec.toInt_signExtend_of_le (by omega), BitVec.toInt_signExtend_of_le (by omega)]
    exact Int.bmod_eq_of_le (by omega) (by omega)
  rw [mulhi, toInt_highHalf, hprod]

theorem not_mask32 (b : Bool) : ~~~mask32 b = mask32 !b := by
  cases b <;> rfl

/-- A modulus under a mask is kept or cleared (40_reducer.md R105). -/
theorem toNat_and_mask32 (p : BitVec 9) (b : Bool) :
    ((p.setWidth 32) &&& mask32 b).toNat = if b then p.toNat else 0 := by
  cases b with
  | false => rw [mask32_false, BitVec.and_zero]; rfl
  | true =>
    have hp := p.isLt
    rw [mask32_true, BitVec.and_allOnes, BitVec.toNat_setWidth, if_pos rfl]
    omega

/-- The subtrahend of CORR (40_reducer.md R105). -/
theorem corrSub_toNat {t : Int} {p : BitVec 9} (hlo : -2 ^ 31 + (p.toNat : Int) ≤ t) (hhi : t < 2 ^ 31) :
    ((corrSub t p).toNat : Int) = if (p.toNat : Int) ≤ t then (p.toNat : Int) else 0 := by
  rw [corrSub, corrDiff, signBit32_eq (by omega) (by omega), not_mask32, toNat_and_mask32]
  simp only [Bool.not_eq_true', decide_eq_false_iff_not, Int.not_lt, Int.sub_nonneg, Nat.cast_ite, Nat.cast_zero]

/-- The addend of CORR (40_reducer.md R105). -/
theorem corrAdd_toNat {t : Int} {p : BitVec 9} (hlo : -2 ^ 31 ≤ t) (hhi : t < 2 ^ 31) :
    ((corrAdd t p).toNat : Int) = if t < 0 then (p.toNat : Int) else 0 := by
  rw [corrAdd, signBit32_eq hlo hhi, toNat_and_mask32]
  simp only [decide_eq_true_eq, Nat.cast_ite, Nat.cast_zero]

/-- CORR applies both corrections, each decided by the candidate itself (40_reducer.md R105). -/
theorem corr_eq {t : Int} {p : BitVec 9} (hlo : -2 ^ 31 + (p.toNat : Int) ≤ t) (hhi : t < 2 ^ 31) :
    corr t p = t - (if (p.toNat : Int) ≤ t then (p.toNat : Int) else 0) + (if t < 0 then (p.toNat : Int) else 0) := by
  rw [corr, corrSub_toNat hlo hhi, corrAdd_toNat (by omega) hhi]

/-- A candidate within one modulus of `[0, p)` is corrected to its floored remainder (40_reducer.md R104, R105). -/
theorem corr_eq_emod {t : Int} {p : BitVec 9} (hlo : -(p.toNat : Int) < t) (hhi : t < 2 * p.toNat) :
    corr t p = t % p.toNat := by
  have hp := p.isLt
  rw [corr_eq (by omega) (by omega)]
  rcases lt_or_ge t 0 with hneg | hpos
  · rw [if_neg (by omega), if_pos hneg, ← Int.add_emod_right, Int.emod_eq_of_lt (by omega) (by omega)]
    omega
  · rw [if_neg (c := t < 0) (by omega)]
    split
    · rw [← Int.sub_emod_right, Int.emod_eq_of_lt (by omega) (by omega)]
      omega
    · rw [Int.emod_eq_of_lt hpos (by omega)]
      omega

/-- The remainder candidate lies within one modulus of `[0, p)` (40_reducer.md R104). -/
theorem msub_mulhi_bounds {x r : Word} {p : BitVec 9} (h2 : 2 ≤ p.toNat) (h256 : p.toNat ≤ 256)
    (hr : r.toInt = (2 ^ 32 / p.toNat : Nat) - 1) :
    -(p.toNat : Int) < msub x (mulhi x r) p ∧ msub x (mulhi x r) p < 2 * p.toNat := by
  obtain ⟨hlo, hhi⟩ := word_toInt_bounds x
  have hr' : r.toInt = 2 ^ 32 / (p.toNat : Int) - 1 := by rw [hr]; push_cast; rfl
  obtain ⟨hpos, hneg⟩ := candidate_bounds rfl hlo hhi (by omega) (by omega) hr'
  rw [msub, mulhi_toInt]
  rcases lt_or_ge x.toInt 0 with h | h
  · obtain ⟨h1, h2⟩ := hneg h
    constructor <;> omega
  · obtain ⟨h1, h2⟩ := hpos h
    constructor <;> omega

/-- On the contract domain REDUCE is the floored remainder (40_reducer.md R108). -/
theorem reduce_toNat {x r : Word} {p : BitVec 9} (free : Byte) (h2 : 2 ≤ p.toNat) (h256 : p.toNat ≤ 256)
    (hr : r.toInt = (2 ^ 32 / p.toNat : Nat) - 1) : ((reduce x r p free).toNat : Int) = x.toInt % p.toNat := by
  obtain ⟨hlo, hhi⟩ := msub_mulhi_bounds (x := x) h2 h256 hr
  have hdom : inDomain r p = true := decide_eq_true ⟨h2, h256, hr⟩
  have hmod : msub x (mulhi x r) p % p.toNat = x.toInt % p.toNat := Int.sub_mul_emod_self_right _ _ _
  have hnonneg := Int.emod_nonneg x.toInt (b := p.toNat) (by omega)
  have hlt := Int.emod_lt_of_pos x.toInt (b := p.toNat) (by omega)
  rw [reduce, if_pos hdom, corr_eq_emod hlo hhi, hmod, narrow8_toNat hnonneg (by omega)]

/-- Outside the contract domain REDUCE is the free byte (40_reducer.md R109). -/
theorem reduce_of_not_inDomain (x : Word) {r : Word} {p : BitVec 9} (free : Byte) (h : inDomain r p = false) :
    reduce x r p free = free := by
  rw [reduce, if_neg (by simp [h])]

/-- TRUNC8 is the floored remainder by 256 (40_reducer.md R110). -/
theorem trunc8_toNat (x : Word) : ((trunc8 x).toNat : Int) = x.toInt % 256 := by
  rw [trunc8, BitVec.extractLsb'_toNat, Nat.shiftRight_zero, BitVec.toInt_eq_toNat_cond]
  split <;> omega

/-- The stored modulus as the reducer takes it (40_reducer.md R117). -/
theorem toNat_storedModulus (d : Descriptor) : (d.p.setWidth 9).toNat = d.p.toNat := by
  have hlt := d.p.isLt
  rw [BitVec.toNat_setWidth]
  omega

/-- The reducer's contract domain, for a stored modulus, is the validity of the descriptor (10_state.md R32, R117). -/
theorem inDomain_iff_valid (d : Descriptor) : inDomain d.invp (d.p.setWidth 9) = true ↔ d.Valid := by
  have hlt := d.p.isLt
  simp only [inDomain, decide_eq_true_eq, Descriptor.Valid, toNat_storedModulus]
  exact ⟨fun ⟨h2, _, hinv⟩ => ⟨h2, hinv⟩, fun ⟨h2, hinv⟩ => ⟨h2, by omega, hinv⟩⟩

/-- ELEMOP at an index that has a descriptor (40_reducer.md R116). -/
theorem elemOp_of_lookup {p : Platform} {i : Nat} {d : Descriptor} (h : p.lookup i = some d) (x : Word) (free : Byte) :
    elemOp p i x free = reduce x d.invp (d.p.setWidth 9) free := by
  cases i with
  | zero => cases h
  | succ i => simp [elemOp, h]

theorem modulus_of_lookup {p : Platform} {i : Nat} {d : Descriptor} (h : p.lookup i = some d) :
    p.modulus i = d.p.toNat := by
  cases i with
  | zero => cases h
  | succ i => simp [Platform.modulus, h]

/-- Settles O36: truncation at index 0, the reducer in its domain, and the free byte outside it. -/
theorem elementOperationGivesTheResidue : Obligations.ElementOperationGivesTheResidue := by
  refine fun p i x free => ⟨?_, fun d hd hinvalid => ?_⟩
  · rintro (rfl | ⟨d, hd, hvalid⟩)
    · exact trunc8_toNat x
    · obtain ⟨h2, h256, hinv⟩ := of_decide_eq_true ((inDomain_iff_valid d).mpr hvalid)
      rw [IsResidue, elemOp_of_lookup hd, modulus_of_lookup hd, reduce_toNat free h2 h256 hinv,
        toNat_storedModulus]
  · rw [elemOp_of_lookup hd]
    exact reduce_of_not_inDomain x free (Bool.eq_false_of_not_eq_true fun h => hinvalid ((inDomain_iff_valid d).mp h))

end Sys2Proof.Machine
end

section
/-! The statements of the memory family on lanes and the residues they leave (20_memory.md R51, R60, R62; R128, R147). The
idea: an active lane stands for four elements, each element for one active lane, so what a lane has stored is said element
by element; a step that stores bytes then touches an element that has been stored only where it is the lane's own. -/

namespace Sys2Proof.Machine

/-! ### Elements in memory (20_memory.md R51) -/

/-- Settles O23: the four bytes are the digits of the element to the base 256. -/
theorem elementBytesAreLittleEndian : Obligations.ElementBytesAreLittleEndian := by
  intro m a j hj
  have h0 := (m.read a).isLt
  have h1 := (m.read (a + 1)).isLt
  have h2 := (m.read (a + 2)).isLt
  have h3 := (m.read (a + 3)).isLt
  apply BitVec.eq_of_toNat_eq
  rw [BitVec.extractLsb'_toNat, Nat.shiftRight_eq_div_pow, Memory.accRead, BitVec.toNat_ofNat]
  interval_cases j
  · change _ = (m.read a).toNat
    omega
  all_goals omega

/-! ### The lanes and the elements (20_memory.md R62) -/

/-- Every element of a command is one of the four of an active lane. -/
theorem exists_lane_of_element (p : Platform) {c : Command} {e : Nat} (hn : c.n.toNat % 4 = 0) (he : e < c.elements) :
    ∃ co ∈ p.grid c.op c.idx c.n.toNat, active co.g c.n.toNat = true ∧
      ∃ j, j < 4 ∧ c.laneOffset co + 4 * co.g + j = e := by
  have hwide := le_gridWidth p c.n.toNat
  simp only [mem_grid, active, decide_eq_true_eq]
  unfold Command.elements Command.subBuffers at he
  unfold Command.laneOffset Command.subOffset
  cases h : c.op with
  | convert =>
    rw [h, Nat.one_mul] at he
    exact ⟨⟨e / 4, 0⟩, ⟨by simp only; omega, rfl⟩, by simp only; omega, e % 4, by omega, by simp only; omega⟩
  | convertBatched =>
    rw [h] at he
    have hpos : 0 < c.n.toNat := Nat.pos_of_lt_mul_left he
    have hlt : e % c.n.toNat < c.n.toNat := Nat.mod_lt _ hpos
    have hdiv : e / c.n.toNat * c.n.toNat + e % c.n.toNat = e := Nat.div_add_mod' _ _
    refine ⟨⟨e % c.n.toNat / 4, e / c.n.toNat⟩, ⟨by simp only; omega, ?_⟩, by simp only; omega,
      e % c.n.toNat % 4, by omega, by simp only; omega⟩
    exact Nat.div_lt_of_lt_mul (Nat.mul_comm _ _ ▸ he)

/-- No element is stood for twice. -/
theorem lane_of_element_unique {p : Platform} {c : Command} {co co' : Coord} {j j' : Nat}
    (hg : co ∈ p.grid c.op c.idx c.n.toNat) (hg' : co' ∈ p.grid c.op c.idx c.n.toNat)
    (ha : active co.g c.n.toNat = true) (ha' : active co'.g c.n.toNat = true) (hj : j < 4) (hj' : j' < 4)
    (he : c.laneOffset co + 4 * co.g + j = c.laneOffset co' + 4 * co'.g + j') : co = co' ∧ j = j' := by
  obtain ⟨g, k⟩ := co
  obtain ⟨g', k'⟩ := co'
  simp only [mem_grid] at hg hg'
  simp only [active, decide_eq_true_eq] at ha ha'
  have hk : k = k' := by
    cases h : c.op with
    | convert => simp only [h] at hg hg'; omega
    | convertBatched =>
      simp only [Command.laneOffset, Command.subOffset, h] at he
      have hdiv : ∀ {k r : Nat}, r < c.n.toNat → (k * c.n.toNat + r) / c.n.toNat = k := fun hr => by
        rw [Nat.mul_comm, Nat.mul_add_div (by omega), Nat.div_eq_of_lt hr, Nat.add_zero]
      rw [Nat.add_assoc, Nat.add_assoc] at he
      rw [← hdiv (k := k) (r := 4 * g + j) (by omega), he, hdiv (by omega)]
  subst hk
  have hoff : c.laneOffset ⟨g, k⟩ = c.laneOffset ⟨g', k⟩ := rfl
  have hj : j = j' := by simp only at he; omega
  have hg : g = g' := by simp only at he; omega
  exact ⟨by rw [hg], hj⟩

/-- Settles O27: the extent holds a byte for each element, and each element is one lane's. -/
theorem lanesPartitionTheResidueExtent : Obligations.LanesPartitionTheResidueExtent := by
  intro p c hn
  refine ⟨fun a ha => ?_, fun co hg co' hg' j j' ha ha' hj hj' he => ?_, fun co hg j ha hj => ?_⟩
  · simp only [Extent.has, Command.resExt] at ha
    obtain ⟨co, hg, hact, j, hj, he⟩ := exists_lane_of_element p (e := a - c.rb.toNat) hn (by omega)
    exact ⟨co, hg, hact, j, hj, by unfold Command.storeAddr; omega⟩
  · unfold Command.storeAddr at he
    exact lane_of_element_unique hg hg' ha ha' hj hj' (by omega)
  · exact store_in_resExt hn hg ha hj

/-! ### Stored elements -/

/-- The residue byte of element `e` holds the residue of the element. -/
def Command.ElementStored (c : Command) (s : State) (e : Nat) : Prop :=
  IsResidue s.plat (c.elementIndex e) (s.mem.accRead (c.ab.toNat + 4 * e)) (s.mem.read (c.rb.toNat + e))

/-- What a record of the queue asks of memory: its part of `ResiduesStored`. -/
def Command.LanesStored (c : Command) (s : State) : Prop :=
  ∀ co ∈ s.plat.grid c.op c.idx c.n.toNat, co ∉ c.pend → active co.g c.n.toNat = true →
    s.plat.ValidIndex (c.laneIndex co) → LaneStored s c co

/-- The invariant of stored residues, record by record. -/
theorem residuesStored_iff (s : State) : ResiduesStored s ↔ ∀ c ∈ s.queue, c.LanesStored s := Iff.rfl

/-- An active lane has stored its group exactly when each of its four elements is stored. -/
theorem laneStored_iff {s : State} {c : Command} {co : Coord} (hn : c.n.toNat % 4 = 0)
    (ha : active co.g c.n.toNat = true) :
    LaneStored s c co ↔ ∀ j, j < 4 → c.ElementStored s (c.laneOffset co + 4 * co.g + j) := by
  refine forall₂_congr fun j hj => ?_
  rw [Command.ElementStored, elementIndex_of_lane hn ha hj]
  unfold Command.loadAddr Command.storeAddr
  rw [show c.ab.toNat + 4 * c.laneOffset co + 16 * co.g + 4 * j = c.ab.toNat + 4 * (c.laneOffset co + 4 * co.g + j) by
    omega, show c.rb.toNat + c.laneOffset co + 4 * co.g + j = c.rb.toNat + (c.laneOffset co + 4 * co.g + j) by omega]

/-- Settles O40: the element's lane is not pending, so it has left the residue. -/
theorem finishedCommandHoldsItsResidues : Obligations.FinishedCommandHoldsItsResidues := by
  intro s c hq hstored hc hpend e he hv
  have hn := (hq.records c hc).count_mod_four
  obtain ⟨co, hg, ha, j, hj, rfl⟩ := exists_lane_of_element s.plat hn he
  rw [elementIndex_of_lane hn ha hj] at hv
  have hlane : LaneStored s c co := hstored c hc co hg (by simp [hpend]) ha hv
  exact (laneStored_iff hn ha).mp hlane j hj

/-! ### Steps that leave a record's extents alone -/

/-- The two states agree on every byte of the record's extents. -/
def Command.SameBytes (c : Command) (s t : State) : Prop :=
  ∀ a, c.accExt.has a ∨ c.resExt.has a → t.mem.read a = s.mem.read a

theorem Command.SameBytes.of_mem_eq {c : Command} {s t : State} (h : t.mem = s.mem) : c.SameBytes s t :=
  fun a _ => by rw [h]

/-- An element's value depends on bytes of the accumulator extent only (20_memory.md R60). -/
theorem accRead_congr_of_accExt {c : Command} {m m' : Memory} {e : Nat} (he : e < c.elements)
    (h : ∀ a, c.accExt.has a → m'.read a = m.read a) :
    m'.accRead (c.ab.toNat + 4 * e) = m.accRead (c.ab.toNat + 4 * e) :=
  accRead_congr fun j hj => h _ (by simp only [Extent.has, Command.accExt]; omega)

theorem Command.ElementStored.of_sameBytes {c : Command} {s t : State} {e : Nat} (h : c.ElementStored s e)
    (he : e < c.elements) (hp : t.plat = s.plat) (hb : c.SameBytes s t) : c.ElementStored t e := by
  have hres : c.resExt.has (c.rb.toNat + e) := by
    simp only [Extent.has, Command.resExt]
    omega
  rw [Command.ElementStored, hp, accRead_congr_of_accExt he fun a ha => hb a (.inl ha), hb _ (.inr hres)]
  exact h

/-- A step that leaves a record's extents alone leaves what its lanes have stored. -/
theorem Command.LanesStored.of_sameBytes {c : Command} {s t : State} (h : c.LanesStored s) (hn : c.n.toNat % 4 = 0)
    (hp : t.plat = s.plat) (hb : c.SameBytes s t) : c.LanesStored t := by
  intro co hg hco ha hv
  rw [hp] at hg hv
  have hlane := (laneStored_iff hn ha).mp (h co hg hco ha hv)
  have hin := lane_within_elements hn hg ha
  exact (laneStored_iff hn ha).mpr fun j hj => (hlane j hj).of_sameBytes (by omega) hp hb

/-- A host store that is answered leaves the extents of every command in flight alone (20_memory.md R70). -/
theorem Command.sameBytes_of_hostStored {c : Command} {s t : State} {a : Nat} {bs : List Byte} (hc : c ∈ s.queue)
    (hfree : s.hostRaces ⟨a, a + bs.length⟩ = false) (hm : t.mem = s.mem.storeBytes a bs) : c.SameBytes s t := by
  intro x hx
  rw [hm]
  refine Memory.read_storeBytes_out _ _ _ _ fun hin => ?_
  rw [(hostRaces_iff s _).mpr ⟨x, hin, c, List.mem_append_left _ hc, hx⟩] at hfree
  cases hfree

/-! ### The step of a lane -/

/-- A lane changes none but its own bytes, with a usable index or not. -/
theorem read_laneMemory_out {c : Command} {co : Coord} {x : Nat} (p : Platform) (d : Nat) (m : Memory)
    (hx : ¬c.LaneWrites co x) : (c.laneMemory p d m co).read x = m.read x := by
  unfold Command.laneMemory
  split
  · next ha => exact read_vst4_out _ _ _ _ _ _ _ _ fun h => hx ⟨ha, h⟩
  · rfl

section lane
variable {s t : State} {c : Command} {co : Coord} {d : Nat} (hok : CommandOk s.plat c) (hco : co ∈ c.pend)
  (hp : t.plat = s.plat) (hm : t.mem = c.laneMemory s.plat d s.mem co)
include hok hco hm

/-- No element changes in the step of a lane of its own command (20_memory.md R61). -/
theorem accRead_lane {e : Nat} (he : e < c.elements) :
    t.mem.accRead (c.ab.toNat + 4 * e) = s.mem.accRead (c.ab.toNat + 4 * e) := by
  refine accRead_congr_of_accExt he fun a ha => ?_
  by_contra hne
  rw [hm] at hne
  exact hok.notInPlace a ⟨ha, resExt_has_of_laneMemory_changes hok hco hne⟩

/-- A command whose extents are apart from the lane's command's keeps its bytes (20_memory.md R64). -/
theorem Command.Disjoint.sameBytes_lane {c' : Command} (h : c'.Disjoint c) : c'.SameBytes s t := by
  intro a ha
  by_contra hne
  rw [hm] at hne
  exact h a ⟨ha, .inr (resExt_has_of_laneMemory_changes hok hco hne)⟩

include hp

/-- The lane that steps stores its elements, where its index is usable (41_single_converter.md R128). -/
theorem laneStored_lane_self (ha : active co.g c.n.toNat = true) (hv : s.plat.ValidIndex (c.laneIndex co)) :
    LaneStored t c co := by
  have hn := hok.count_mod_four
  have hin := lane_within_elements hn (hok.pendInGrid co hco) ha
  refine (laneStored_iff hn ha).mpr fun j hj => ?_
  have hw : c.LaneWrites co (c.rb.toNat + (c.laneOffset co + 4 * co.g + j)) :=
    ⟨ha, by unfold Command.storeAddr; omega, by unfold Command.storeAddr; omega⟩
  rw [Command.ElementStored, accRead_lane hok hco hm (by omega), hp, hm, read_laneMemory hn hv, if_pos hw,
    Nat.add_sub_cancel_left, Command.elementByte]
  refine (elementOperationGivesTheResidue _ _ _ _).1 ?_
  rwa [elementIndex_of_lane hn ha hj]

/-- Another active lane of the command keeps what it has stored: no two lanes share a byte (20_memory.md R62). -/
theorem laneStored_lane_of_ne {co' : Coord} (hg' : co' ∈ s.plat.grid c.op c.idx c.n.toNat)
    (ha' : active co'.g c.n.toNat = true) (hne : co' ≠ co) (h : LaneStored s c co') : LaneStored t c co' := by
  have hn := hok.count_mod_four
  have hin := lane_within_elements hn hg' ha'
  rw [laneStored_iff hn ha'] at h ⊢
  intro j hj
  have hout : ¬c.LaneWrites co (c.rb.toNat + (c.laneOffset co' + 4 * co'.g + j)) := by
    rintro ⟨ha, hlo, hhi⟩
    unfold Command.storeAddr at hlo hhi
    obtain ⟨j', hj'⟩ := Nat.exists_eq_add_of_le
      (show c.laneOffset co + 4 * co.g ≤ c.laneOffset co' + 4 * co'.g + j by omega)
    exact hne (lane_of_element_unique hg' (hok.pendInGrid co hco) ha' ha hj (by omega) hj').1
  rw [Command.ElementStored, accRead_lane hok hco hm (by omega), hp, hm, read_laneMemory_out _ _ _ hout]
  exact h j hj

/-- The record whose lane steps: its lanes that are not pending any more have stored their groups. -/
theorem Command.LanesStored.dropLane (h : c.LanesStored s) :
    Command.LanesStored { c with pend := c.pend.erase co } t := by
  intro co' hg' hco' ha' hv'
  rw [hp] at hg' hv'
  show LaneStored t c co'
  by_cases hne : co' = co
  · subst hne
    exact laneStored_lane_self hok hco hp hm ha' hv'
  · have hnot : co' ∉ c.pend := fun hin => hco' ((List.mem_erase_of_ne hne).mpr hin)
    exact laneStored_lane_of_ne hok hco hp hm hg' ha' hne (h co' hg' hnot ha' hv')

end lane

/-- The step of a lane keeps the residues of its own record and of every other. -/
theorem ResiduesStored.lane {s t : State} {pos : Nat} {c : Command} {co : Coord} {d : Nat} (hq : QueueOk s)
    (hstored : ResiduesStored s) (hc : s.queue[pos]? = some c) (hco : co ∈ c.pend)
    (htq : t.queue = s.queue.set pos { c with pend := c.pend.erase co })
    (hm : t.mem = c.laneMemory s.plat d s.mem co) (hp : t.plat = s.plat) : ResiduesStored t := by
  have hmem : c ∈ s.queue := List.mem_of_getElem? hc
  have hok : CommandOk s.plat c := hq.records c hmem
  have hown : Command.LanesStored { c with pend := c.pend.erase co } t :=
    Command.LanesStored.dropLane hok hco hp hm (hstored c hmem)
  rw [residuesStored_iff] at hstored ⊢
  intro c' hc'
  rw [htq] at hc'
  rcases List.mem_or_eq_of_mem_set hc' with hc' | rfl
  · by_cases hcc : c' = c
    · subst hcc
      exact fun co' hg hnot => hown co' hg fun h => hnot (List.mem_of_mem_erase h)
    · exact (hstored c' hc').of_sameBytes (hq.records c' hc').count_mod_four hp
        ((hq.disjoint_of_ne hc' hmem hcc).sameBytes_lane hok hco hm)
  · exact hown

/-! ### Every step -/

/-- Residues stay where the records of the next state were there before and keep their bytes. -/
theorem ResiduesStored.of_subset {s t : State} (hq : QueueOk s) (hstored : ResiduesStored s)
    (hsub : ∀ c ∈ t.queue, c ∈ s.queue) (hp : t.plat = s.plat) (hb : ∀ c ∈ s.queue, c.SameBytes s t) :
    ResiduesStored t := by
  rw [residuesStored_iff] at hstored ⊢
  intro c hc
  have hmem := hsub c hc
  exact (hstored c hmem).of_sameBytes (hq.records c hmem).count_mod_four hp (hb c hmem)

/-- A record that has just been launched has every lane pending, and asks nothing of memory (43_control.md R163). -/
theorem lanesStored_newCommand {s : State} {p : Platform} (op : Op) (idx : Nat) (o : LaunchOperands)
    (hp : s.plat = p) : (newCommand p op idx o).LanesStored s := by
  subst hp
  exact fun _ hg hnot => absurd hg hnot

theorem ResiduesStored.of_queue_nil {s : State} (h : s.queue = []) : ResiduesStored s := by
  intro c hc
  simp [h] at hc

/-- Settles O51: a step stores in no extent in flight, or it is a lane's and stores that lane's residues. -/
theorem stepKeepsStoredResidues : Obligations.StepKeepsStoredResidues := by
  intro s t hq hstored hstep
  cases step_effect hstep with
  | quiet q m p => exact hstored.of_subset hq (fun c hc => q ▸ hc) p fun _ _ => .of_mem_eq m
  | launched op idx o _ _ q m p =>
    rw [residuesStored_iff] at hstored ⊢
    intro c hc
    rw [q] at hc
    rcases List.mem_append.mp hc with hc | hc
    · exact (hstored c hc).of_sameBytes (hq.records c hc).count_mod_four p (.of_mem_eq m)
    · rw [List.mem_singleton.mp hc]
      exact lanesStored_newCommand op idx o p
  | hostStored a bs _ hfree q m p =>
    exact hstored.of_subset hq (fun c hc => q ▸ hc) p fun c hc => Command.sameBytes_of_hostStored hc hfree m
  | inert pos c co hc hco hact q m p =>
    exact hstored.lane (d := 0) hq hc hco q (by simp [Command.laneMemory, hact, m]) p
  | lane pos c co d hc hco hact q _ _ m p =>
    exact hstored.lane (d := d) hq hc hco q (by simp [Command.laneMemory, hact, m]) p
  | retired pos c _ _ q m p =>
    exact hstored.of_subset hq (fun c hc => List.mem_of_mem_eraseIdx (q ▸ hc)) p fun _ _ => .of_mem_eq m
  | reset _ q _ _ => exact .of_queue_nil q
  | loaded _ _ _ hidle q _ _ => exact .of_queue_nil (q.trans hidle)

/-! ### The form of memory (20_memory.md R50) -/

/-- Settles O49: what a step stores, it stores in canonical form, and within the address space. -/
theorem stepKeepsMemoryForm : Obligations.StepKeepsMemoryForm := by
  intro s t hstep
  have same : t.mem = s.mem →
      (s.mem.wf = true → t.mem.wf = true) ∧ (QueueOk s → s.mem.inSpace = true → t.mem.inSpace = true) :=
    fun h => h ▸ ⟨id, fun _ => id⟩
  cases step_effect hstep with
  | quiet _ m _ => exact same m
  | launched _ _ _ _ _ _ m _ => exact same m
  | hostStored a bs hfit _ _ m _ =>
    rw [m]
    exact ⟨Memory.wf_storeBytes a bs, fun _ => Memory.inSpace_storeBytes hfit⟩
  | inert _ _ _ _ _ _ _ m _ => exact same m
  | lane _ _ _ _ _ _ _ _ _ hstore m _ =>
    rw [m]
    exact ⟨Memory.wf_storeBytes _ _, fun _ => Memory.inSpace_storeBytes (by simpa using hstore)⟩
  | retired _ _ _ _ _ m _ => exact same m
  | reset d _ m _ =>
    rw [m]
    exact ⟨wf_scramble d _, fun hq => inSpace_scramble d _ fun c hc => (hq.records c hc).resFits⟩
  | loaded _ _ _ _ _ m _ => exact same m

end Sys2Proof.Machine
end

section
/-! The statements of the memory family on the host's accesses (20_memory.md R65, R70), RESET (70_reset_and_hazards.md R200
to R204) and faults (60_exceptions.md R175). -/

namespace Sys2Proof.Machine

/-! ### Host accesses -/

/-- Settles O43: a store that does not race is the store of its bytes. -/
theorem hostStoresToBytesItOwns : Obligations.HostStoresToBytesItOwns := by
  intro s rest addr bytes prog h hfit hfree
  have hspace : ¬addrSpace < addr.toNat + bytes.length := Nat.not_lt.mpr hfit
  have hrace : ¬s.hostRaces ⟨addr.toNat, addr.toNat + bytes.length⟩ = true := by
    rw [hostRaces_iff]
    rintro ⟨a, ⟨hlo, hhi⟩, c, hc, ha⟩
    obtain ⟨hacc, hres⟩ := hfree a hlo hhi c hc
    exact ha.elim hacc hres
  refine ⟨{ s with agenda := rest, program := prog, mem := s.mem.storeBytes addr.toNat bytes }, ?_, ?_, ?_, rfl, rfl, rfl,
    rfl, rfl⟩
  · rw [step_of_hostIsNext h, hostAction, memWrite, if_neg hspace]
    exact if_neg hrace
  · exact fun j hj => Memory.read_storeBytes_in _ _ _ _ hj
  · exact fun a ha => Memory.read_storeBytes_out _ _ _ _ ha

/-- Settles O44: the store races. -/
theorem hostRaceIsRefused : Obligations.HostRaceIsRefused := by
  intro s rest addr bytes prog h hfit ⟨a, hlo, hhi, hc⟩
  have hspace : ¬addrSpace < addr.toNat + bytes.length := Nat.not_lt.mpr hfit
  rw [step_of_hostIsNext h, hostAction, memWrite, if_neg hspace]
  exact if_pos ((hostRaces_iff s _).mpr ⟨a, ⟨hlo, hhi⟩, hc⟩)

/-- Settles O45: byte by byte, the free value where the byte is a residue byte the host does not own. -/
theorem hostLoadsWhatIsFixed : Obligations.HostLoadsWhatIsFixed := by
  intro s rest addr len prog h hfit
  have hspace : ¬addrSpace < addr.toNat + len := Nat.not_lt.mpr hfit
  refine ⟨_, _, (step_of_hostIsNext h).trans (if_neg hspace), rfl, by simp, rfl, rfl, fun j hj => ?_⟩
  rw [List.getElem_map, List.getElem_range, State.hostByte]
  refine ⟨fun hres => if_pos ?_, fun hres => if_neg ?_⟩
  · exact (inFlightResidue_iff _ _).mpr hres
  · exact mt (inFlightResidue_iff _ _).mp hres

@[simp] theorem joinRound_program (s : State) :
    (joinRound s).program = if s.busy then .join :: s.program else s.program := rfl

/-- Settles O12: a round is a read of `STATUS`, and `BUSY` decides whether JOIN comes again. -/
theorem joinEndsWhenNothingIsInFlight : Obligations.JoinEndsWhenNothingIsInFlight := by
  intro s rest prog h
  obtain ⟨_, hheld, _⟩ := id h
  refine ⟨joinRound { s with agenda := rest, program := prog }, step_of_hostIsNext h, ?_⟩
  simp [statusWord_eq, busy_iff, hheld]

/-! ### RESET -/

/-- A residue byte of a discarded command is free after RESET (70_reset_and_hazards.md R203). -/
theorem read_scramble_in (m : Memory) (d : Nat) {cs : List Command} {a : Nat} (h : ∃ c ∈ cs, c.resExt.has a) :
    ∃ d', (scramble m d cs).read a = Config.any8 d' := by
  induction cs generalizing m d with
  | nil => simp at h
  | cons c cs ih =>
    rw [scramble]
    by_cases hcs : ∃ c' ∈ cs, c'.resExt.has a
    · exact ih _ _ hcs
    · obtain ⟨hlo, hhi⟩ : c.resExt.has a := ((List.exists_mem_cons_iff _ _ _).mp h).resolve_right hcs
      obtain ⟨j, rfl⟩ := Nat.exists_eq_add_of_le hlo
      have hj : j < (freeBytes d c.elements).length := by
        simp only [Command.resExt] at hhi
        rw [length_freeBytes]
        omega
      refine ⟨d + j, ?_⟩
      rw [read_scramble_out _ _ _ _ fun c' hc' hin => hcs ⟨c', hc', hin⟩]
      refine (Memory.read_storeBytes_in _ _ _ _ hj).trans ?_
      simp [freeBytes]

/-- Settles O46: RESET as it is defined, and memory scrambled over the residue extents of `Q`. -/
theorem resetDiscardsEveryCommand : Obligations.ResetDiscardsEveryCommand := by
  intro s rest hag
  refine ⟨resetMove { s with agenda := rest }, step_of_agenda hag, rfl, rfl, rfl, rfl, rfl, rfl, rfl, ?_, ?_⟩
  · exact fun a hno => read_scramble_out _ _ _ _ fun c hc hin => hno ⟨c, hc, hin⟩
  · exact fun a hin => read_scramble_in _ _ hin

/-! ### Faults -/

/-- An action of the host faults only where it accesses memory past the end of the address space (20_memory.md R50). -/
theorem hostAction_fault {a : HostAction} {s : State} {f : Fault} (h : hostAction a s = .fault f) :
    (∃ addr bytes, a = .memWrite addr bytes ∧ addrSpace < addr.toNat + bytes.length) ∨
    (∃ addr len, a = .memRead addr len ∧ addrSpace < addr.toNat + len) := by
  cases a with
  | regWrite offset width v =>
    simp only [hostAction, regWrite] at h
    split at h
    case h_4 => exact absurd h (writeCmd_ne_fault _ _ _)
    all_goals cases h
  | regRead offset width =>
    simp only [hostAction, regRead] at h
    split at h <;> cases h
  | join => cases h
  | memWrite addr bytes =>
    simp only [hostAction, memWrite] at h
    split_ifs at h with hpast
    exact .inl ⟨addr, bytes, rfl, hpast⟩
  | memRead addr len =>
    simp only [hostAction, memRead] at h
    split_ifs at h with hpast
    exact .inr ⟨addr, len, rfl, hpast⟩

/-- A host step that faults is the next action of its program: a held write never faults (43_control.md R166). -/
theorem hostStep_fault {s : State} {f : Fault} (h : hostStep s = .fault f) :
    s.heldWrite = none ∧ ∃ a prog, s.program = a :: prog ∧ hostAction a { s with program := prog } = .fault f := by
  unfold hostStep at h
  split at h
  · exact absurd h (writeCmd_ne_fault _ _ _)
  · next hheld =>
    split at h
    · cases h
    · next a prog hprog => exact ⟨hheld, a, prog, hprog, h⟩

/-- No lane of a record in flight leaves the address space (20_memory.md R56). -/
theorem laneMove_ne_fault {s : State} (hrec : ∀ c ∈ s.queue, CommandOk s.plat c) (pos : Nat) (co : Coord) (f : Fault) :
    laneMove pos co s ≠ .fault f := by
  intro h
  cases hc : s.queue[pos]? with
  | none => simp [laneMove, hc] at h
  | some c =>
    by_cases hco : co ∈ c.pend
    · obtain ⟨d, hlane⟩ := laneMove_eq hc (hrec c (List.mem_of_getElem? hc)) hco
      rw [hlane] at h
      cases h
    · simp [laneMove, hc, hco] at h

theorem retireMove_ne_fault (s : State) (pos : Nat) (f : Fault) : retireMove pos s ≠ .fault f := by
  unfold retireMove
  split
  · split <;> simp
  · simp

theorem loadMove_ne_fault (s : State) (copy : TableCopy) (i : Nat) (d : Descriptor) (f : Fault) :
    loadMove copy i d s ≠ .fault f := by
  unfold loadMove
  split <;> simp

/-- Settles O57: of the movers the host alone can fault, by an access past the end of the address space. -/
theorem coreRaisesNoException : Obligations.CoreRaisesNoException := by
  intro s f hq hstep
  rcases step_cases s with h | ⟨mv, a, d, u, h⟩ <;> rw [h] at hstep
  · cases hstep
  cases mv with
  | host =>
    obtain ⟨hheld, a, prog, hprog, hact⟩ := hostStep_fault hstep
    refine ⟨hheld, ?_⟩
    rcases hostAction_fault hact with ⟨addr, bytes, rfl, hpast⟩ | ⟨addr, len, rfl, hpast⟩
    · exact .inl ⟨addr, bytes, prog, hprog, hpast⟩
    · exact .inr ⟨addr, len, prog, hprog, hpast⟩
  | lane pos co =>
    exact absurd hstep (laneMove_ne_fault (s := { s with agenda := a, draws := d, turn := u }) hq.records pos co f)
  | retire pos => exact absurd hstep (retireMove_ne_fault _ pos f)
  | reset => cases hstep
  | loadEntry copy i d => exact absurd hstep (loadMove_ne_fault _ copy i d f)

end Sys2Proof.Machine
end

section
/-! The statements of the encoding family on command words (30_encoding.md R81 to R90): one lemma per branch of the decoding
procedure, with the fields as numbers, and both directions of the round trip from them. -/

namespace Sys2Proof

/-! ### The branches of R90 -/

theorem decode_reservedOpcode {w : Word} (h1 : w.toNat / 2 ^ 24 ≠ 1) (h2 : w.toNat / 2 ^ 24 ≠ 2) :
    decode w = .error .reservedOpcode :=
  if_pos ⟨mt (opcField_eq_iff w _).mp h1, mt (opcField_eq_iff w _).mp h2⟩

/-- An `OPC` that is a command's passes the first test of R90. -/
theorem not_reserved_of_opc {w : Word} (h : w.toNat / 2 ^ 24 = 1 ∨ w.toNat / 2 ^ 24 = 2) :
    ¬(opcField w ≠ 0x01#8 ∧ opcField w ≠ 0x02#8) := fun ⟨h1, h2⟩ =>
  h.elim (fun h => h1 ((opcField_eq_iff w _).mpr h)) (fun h => h2 ((opcField_eq_iff w _).mpr h))

theorem decode_reservedField {w : Word} (h : w.toNat / 2 ^ 24 = 1 ∨ w.toNat / 2 ^ 24 = 2)
    (hrsv : w.toNat / 2 ^ 16 % 256 ≠ 0) : decode w = .error .reservedField := by
  rw [decode, if_neg (not_reserved_of_opc h)]
  exact if_pos (mt (rsvField_eq_iff w 0#8).mp hrsv)

theorem decode_convert {w : Word} (h : w.toNat / 2 ^ 24 = 1) (hrsv : w.toNat / 2 ^ 16 % 256 = 0) :
    decode w = .ok (.convert (w.toNat % 65536)) := by
  have hopc : opcField w = 0x01#8 := (opcField_eq_iff w _).mpr h
  have hzero : rsvField w = 0#8 := (rsvField_eq_iff w _).mpr hrsv
  rw [← idxField_toNat]
  simp [decode, hopc, hzero]

theorem decode_convertBatched {w : Word} (h : w.toNat / 2 ^ 24 = 2) (hrsv : w.toNat / 2 ^ 16 % 256 = 0) :
    decode w = .ok (.convertBatched (w.toNat % 65536)) := by
  have hopc : opcField w = 0x02#8 := (opcField_eq_iff w _).mpr h
  have hzero : rsvField w = 0#8 := (rsvField_eq_iff w _).mpr hrsv
  rw [← idxField_toNat]
  simp [decode, hopc, hzero]

/-- A word that decodes has a command's `OPC` and `RSV` 0 (30_encoding.md R84, R85). -/
theorem fields_of_decode_ok {w : Word} {i : Instr} (h : decode w = .ok i) :
    (w.toNat / 2 ^ 24 = 1 ∨ w.toNat / 2 ^ 24 = 2) ∧ w.toNat / 2 ^ 16 % 256 = 0 := by
  have hopc : w.toNat / 2 ^ 24 = 1 ∨ w.toNat / 2 ^ 24 = 2 := by
    by_contra hno
    obtain ⟨h1, h2⟩ := not_or.mp hno
    rw [decode_reservedOpcode h1 h2] at h
    cases h
  refine ⟨hopc, ?_⟩
  by_contra hrsv
  rw [decode_reservedField hopc hrsv] at h
  cases h

/-! ### The statements -/

/-- Settles O2: the word of a well-formed command is its opcode times 2^24 plus the index, which fits the low 16 bits. -/
theorem decodeOfEncodeIsTheCommand : Obligations.DecodeOfEncodeIsTheCommand := by
  intro i hwf
  have hidx := hwf
  cases i with
  | convert idx =>
    have hw := encode_convert_toNat hwf
    simp only [Instr.wf, decide_eq_true_eq] at hidx
    rw [decode_convert (by omega) (by omega), show (encode (.convert idx)).toNat % 65536 = idx by omega]
  | convertBatched m =>
    have hw := encode_convertBatched_toNat hwf
    simp only [Instr.wf, decide_eq_true_eq] at hidx
    rw [decode_convertBatched (by omega) (by omega), show (encode (.convertBatched m)).toNat % 65536 = m by omega]

/-- Settles O3: the three fields cover the word, so that the number of the word is that of the command's. -/
theorem encodeOfDecodeIsTheWord : Obligations.EncodeOfDecodeIsTheWord := by
  intro w i h
  obtain ⟨hopc, hrsv⟩ := fields_of_decode_ok h
  have hlt : w.toNat % 65536 < 65536 := Nat.mod_lt _ (by decide)
  rcases hopc with hopc | hopc
  · have hwf : (Instr.convert (w.toNat % 65536)).wf = true := decide_eq_true hlt
    rw [decode_convert hopc hrsv] at h
    cases h
    exact ⟨hwf, BitVec.eq_of_toNat_eq (by rw [encode_convert_toNat hwf]; omega)⟩
  · have hwf : (Instr.convertBatched (w.toNat % 65536)).wf = true := decide_eq_true hlt
    rw [decode_convertBatched hopc hrsv] at h
    cases h
    exact ⟨hwf, BitVec.eq_of_toNat_eq (by rw [encode_convertBatched_toNat hwf]; omega)⟩

/-- Settles O4: one branch of the procedure for each clause. -/
theorem decodeFollowsTheFields : Obligations.DecodeFollowsTheFields :=
  fun _ => ⟨decode_reservedOpcode, decode_reservedField, decode_convert, decode_convertBatched⟩

/-- Settles O1: each word is one branch of the procedure. -/
theorem specWordsDecode : Obligations.SpecWordsDecode :=
  ⟨decode_convert rfl rfl, decode_convert rfl rfl, decode_convertBatched rfl rfl,
    decode_reservedOpcode (by decide) (by decide), decode_reservedField (.inl rfl) (by decide)⟩

end Sys2Proof
end

section
/-! The statements of the encoding family on what a command word does when it is written: reserved words
(30_encoding.md R84, R85) and the launch of each command (43_control.md R162, R163). -/

namespace Sys2Proof.Machine

/-! ### Reserved words -/

/-- With room in the queue a word that is no command is refused for its decoding error (60_exceptions.md R180). -/
theorem writeCmd_of_decode_error {w : Word} {s : State} {e : DecodeError} (hroom : s.queue.length < s.plat.nq)
    (he : decode w = .error e) : writeCmd w s = .refused (refusalOf e) := by
  simp [writeCmd, he, queueFull_eq_false hroom]

/-- The two reasons by the fields of the word (30_encoding.md R84, R85). -/
theorem writeCmd_reserved (w : Word) (s : State) (hroom : s.queue.length < s.plat.nq) :
    ((w.toNat / 2 ^ 24 ≠ 1 ∧ w.toNat / 2 ^ 24 ≠ 2) → writeCmd w s = .refused .reservedOpcode) ∧
    ((w.toNat / 2 ^ 24 = 1 ∨ w.toNat / 2 ^ 24 = 2) → w.toNat / 2 ^ 16 % 256 ≠ 0 →
      writeCmd w s = .refused .reservedField) :=
  ⟨fun ⟨h1, h2⟩ => writeCmd_of_decode_error hroom (decode_reservedOpcode h1 h2),
    fun hopc hrsv => writeCmd_of_decode_error hroom (decode_reservedField hopc hrsv)⟩

/-- The host's step while a write is held is that write again (43_control.md R166). -/
theorem step_of_heldWrite {s : State} {rest : List Move} {w : Word} (hag : s.agenda = .host :: rest)
    (hheld : s.heldWrite = some w) : step s = writeCmd w { s with agenda := rest, heldWrite := none } := by
  rw [step_of_agenda hag]
  simp [takeMove, hostStep, hheld]

/-- Settles O6: either way the host writes the word to `CMD`, and its fields decide the reason. -/
theorem reservedWordsAreRefused : Obligations.ReservedWordsAreRefused := by
  refine ⟨fun s rest v prog h hroom => ?_, fun s rest w hag hheld hroom => ?_⟩
  · have hstep : step s = writeCmd (v.setWidth 32) { s with agenda := rest, program := prog } := step_of_hostIsNext h
    have hopc : v.toNat % 2 ^ 32 = (v.setWidth 32).toNat := (BitVec.toNat_setWidth 32 v).symm
    have hrsv : v.toNat / 2 ^ 16 % 256 = (v.setWidth 32).toNat / 2 ^ 16 % 256 := by omega
    rw [hstep, hopc, hrsv]
    exact writeCmd_reserved _ _ hroom
  · rw [step_of_heldWrite hag hheld]
    exact writeCmd_reserved _ _ hroom

/-! ### Launches that complete -/

/-- A command that is admitted, with room in the queue, appends its record (43_control.md R163). -/
theorem exec_admitted {i : Instr} {s : State} {o : LaunchOperands} (hroom : s.queue.length < s.plat.nq)
    (ho : s.operands = some o) (ha : Admitted s (newCommand s.plat (opOf i) (indexOf i) o)) :
    exec i s = .next (s.enqueue (newCommand s.plat (opOf i) (indexOf i) o)) :=
  (exec_eq_launch i s).trans (launch_admitted (queueFull_eq_false hroom) ho ha)

theorem operands_eq_some {s : State} {n ab rb : DWord} (hn : s.count = some n) (hab : s.accBase = some ab)
    (hrb : s.resBase = some rb) : s.operands = some ⟨n, ab, rb⟩ := by
  simp [State.operands, hn, hab, hrb]

/-- Settles O13: the record of the statement is the one that the launch creates. -/
theorem convertAppendsItsRecord : Obligations.ConvertAppendsItsRecord :=
  fun _ _ _ _ _ hn hab hrb hroom ha => exec_admitted hroom (operands_eq_some hn hab hrb) ha

/-- Settles O14: as for CONVERT, with the index as the number of sub-buffers. -/
theorem convertBatchedAppendsItsRecord : Obligations.ConvertBatchedAppendsItsRecord :=
  fun _ _ _ _ _ hn hab hrb hroom ha => exec_admitted hroom (operands_eq_some hn hab hrb) ha

end Sys2Proof.Machine
end

section
/-! The statement of the encoding family on progress (43_control.md R168). Every step but an idle one lowers `State.work`,
which is ordered lexicographically: the moves of the agenda, the host's actions, the steps of CORE, and the turn. A polling
round of JOIN alone leaves the first three, and it cannot be taken when CORE's step is due. A run that comes to its end is
weakly fair, as nothing is enabled in a finished state. -/

namespace Sys2Proof.Machine

/-! ### Lane steps and retirement -/

/-- What is owed by the records before a place, at it and after it. -/
theorem pendingLanes_split {s : State} {pos : Nat} {c : Command} (hc : s.queue[pos]? = some c) :
    pendingLanes s = ((s.queue.take pos).map fun d => d.pend.length).sum + c.pend.length +
      ((s.queue.drop (pos + 1)).map fun d => d.pend.length).sum := by
  obtain ⟨hpos, rfl⟩ := List.getElem?_eq_some_iff.mp hc
  conv_lhs => rw [pendingLanes, ← List.take_append_drop pos s.queue, List.drop_eq_getElem_cons hpos]
  rw [List.map_append, List.map_cons, List.sum_append, List.sum_cons, Nat.add_assoc]

/-- A lane's step pays one of the lane steps owed (41_single_converter.md R126). -/
theorem pendingLanes_dropLane {s : State} {pos : Nat} {c : Command} {co : Coord} (hc : s.queue[pos]? = some c)
    (hco : co ∈ c.pend) : pendingLanes (s.dropLane pos c co) + 1 = pendingLanes s := by
  have hpos : pos < s.queue.length := (List.getElem?_eq_some_iff.mp hc).1
  have hc' : (s.dropLane pos c co).queue[pos]? = some { c with pend := c.pend.erase co } := List.getElem?_set_self hpos
  have hpay := List.length_erase_add_one hco
  rw [pendingLanes_split hc, pendingLanes_split hc', dropLane_queue, List.take_set_of_le (Nat.le_refl pos),
    List.drop_set_of_lt (Nat.lt_add_one pos)]
  dsimp only
  omega

/-- A finished record owes no lane step (43_control.md R167). -/
theorem pendingLanes_retire {s : State} {pos : Nat} {c : Command} (hc : s.queue[pos]? = some c) (hpend : c.pend = []) :
    pendingLanes (s.retire pos c) = pendingLanes s := by
  rw [pendingLanes_split hc, pendingLanes, retire_queue, List.eraseIdx_eq_take_drop_succ]
  simp [hpend]

theorem length_queue_retire {s : State} {pos : Nat} {c : Command} (hc : s.queue[pos]? = some c) :
    (s.retire pos c).queue.length + 1 = s.queue.length := by
  have hpos : pos < s.queue.length := (List.getElem?_eq_some_iff.mp hc).1
  rw [retire_queue, List.length_eraseIdx_of_lt hpos]
  omega

/-- The step of a pending lane, where the agenda names it. -/
theorem pendingLane_steps {s : State} {rest : List Move} {pos : Nat} {c : Command} {co : Coord} (hq : QueueOk s)
    (hc : s.queue[pos]? = some c) (hco : co ∈ c.pend) (hag : s.agenda = .lane pos co :: rest) :
    ∃ t, step s = .next t ∧ pendingLanes t + 1 = pendingLanes s ∧ t.queue.length = s.queue.length := by
  have hok : CommandOk s.plat c := hq.records c (List.mem_of_getElem? hc)
  obtain ⟨d, hlane⟩ := laneMove_eq (s := { s with agenda := rest }) hc hok hco
  exact ⟨_, (step_of_agenda hag).trans hlane, pendingLanes_dropLane hc hco, by simp⟩

/-- The retirement of a finished record, where the agenda names it. -/
theorem finishedRecord_retires {s : State} {rest : List Move} {pos : Nat} {c : Command} (hc : s.queue[pos]? = some c)
    (hpend : c.pend = []) (hag : s.agenda = .retire pos :: rest) :
    ∃ t, step s = .next t ∧ pendingLanes t = pendingLanes s ∧ t.queue.length + 1 = s.queue.length := by
  refine ⟨State.retire { s with agenda := rest } pos c, ?_, pendingLanes_retire hc hpend, length_queue_retire hc⟩
  rw [step_of_agenda hag]
  simp [takeMove, retireMove, hc, hpend]

/-! ### What is left to do -/

/-- The host's side of the work: an action that ends up as a held write still counts, but for less. -/
def State.hostWork (s : State) : Nat := 2 * s.program.length + s.heldWrite.toList.length

/-- CORE's side of the work: the lane steps owed and the retirements to come. -/
def State.coreWork (s : State) : Nat := pendingLanes s + s.queue.length

/-- What is left of the two turns: the host's comes before CORE's, each with its patience (43_control.md R168; log 28). -/
def Turn.left (u : Turn) : ℕ ×ₗ ℕ := toLex (u.hostDue.toNat, u.patience)

/-- What every step but an idle one lowers. -/
def State.work (s : State) : ℕ ×ₗ ℕ ×ₗ ℕ ×ₗ ℕ ×ₗ ℕ :=
  toLex (s.agenda.length, toLex (s.hostWork, toLex (s.coreWork, s.turn.left)))

theorem coreWork_congr {s t : State} (h : t.queue = s.queue) : t.coreWork = s.coreWork := by
  simp [State.coreWork, pendingLanes, h]

/-! ### Moves of CORE -/

/-- An enabled step of CORE lowers its work (41_single_converter.md R126, 43_control.md R167). -/
theorem coreWork_lt_of_coreMove {s t : State} {mv : Move} (hmv : mv ∈ coreMoves s) (h : takeMove mv s = .next t) :
    t.coreWork < s.coreWork := by
  obtain ⟨pos, c, hc, hmv⟩ := (mem_coreMoves s mv).mp hmv
  unfold recordMoves at hmv
  split at hmv
  · next hpend =>
    rw [List.isEmpty_iff] at hpend
    obtain rfl := List.mem_singleton.mp hmv
    simp only [takeMove, retireMove, hc, if_pos hpend] at h
    cases h
    have hlanes := pendingLanes_retire hc hpend
    have hlen := length_queue_retire hc
    unfold State.coreWork
    omega
  · obtain ⟨co, hco, rfl⟩ := List.mem_map.mp hmv
    have hdrop : (s.dropLane pos c co).coreWork < s.coreWork := by
      have hlanes := pendingLanes_dropLane hc hco
      have hlen : (s.dropLane pos c co).queue.length = s.queue.length := List.length_set
      unfold State.coreWork
      omega
    simp only [takeMove, laneMove, hc, if_pos hco, laneStep_eq, groupStep] at h
    split_ifs at h <;> cases h <;> exact hdrop

theorem host_not_mem_coreMoves (s : State) : Move.host ∉ coreMoves s := by
  intro h
  obtain ⟨pos, c, _, h⟩ := (mem_coreMoves s _).mp h
  unfold recordMoves at h
  split at h <;> simp at h

/-! ### Moves of the host -/

/-- Only JOIN puts anything back on the host's program. -/
theorem hostAction_program {a : HostAction} {s t : State} (ha : a ≠ .join) (h : hostAction a s = .next t) :
    t.program = s.program := by
  cases a with
  | regWrite offset width v =>
    simp only [hostAction, regWrite] at h
    split at h
    case h_4 => exact (writeCmd_hostSide h).1
    all_goals cases h <;> rfl
  | regRead offset width =>
    simp only [hostAction, regRead] at h
    split at h <;> cases h <;> simp
  | join => exact absurd rfl ha
  | memWrite addr bytes =>
    simp only [hostAction, memWrite] at h
    split_ifs at h
    cases h
    rfl
  | memRead addr len =>
    simp only [hostAction, memRead] at h
    split_ifs at h
    cases h
    rfl

theorem eq_host_of_mem_hostMoves {s : State} {mv : Move} (h : mv ∈ hostMoves s) : mv = .host := by
  unfold hostMoves at h
  split at h <;> split at h <;> simp_all

/-- A round of JOIN takes itself off the program, and comes again while a command is in flight (43_control.md R165). -/
theorem joinRound_hostWork (s : State) : (joinRound s).hostWork = s.hostWork + if s.queue = [] then 0 else 2 := by
  by_cases hq : s.queue = []
  · simp [State.hostWork, State.busy, hq]
  · simp only [State.hostWork, joinRound_program, (busy_iff s).mpr hq, if_neg hq, if_true, List.length_cons,
      joinRound_heldWrite]
    omega

/-- The next action of the program lowers the host's work, or is a round of a JOIN that is not done. -/
theorem hostAction_lowers {a : HostAction} {prog : List HostAction} {s t : State} (hprog : s.program = a :: prog)
    (h : hostAction a { s with program := prog } = .next t) :
    t.hostWork < s.hostWork ∨ (s.queue ≠ [] ∧ t.queue = s.queue ∧ t.hostWork = s.hostWork) := by
  have htaken : State.hostWork { s with program := prog } + 2 = s.hostWork := by
    simp only [State.hostWork, hprog, List.length_cons]
    omega
  by_cases ha : a = .join
  · subst ha
    cases h
    have hround := joinRound_hostWork { s with program := prog }
    by_cases hq : s.queue = []
    · rw [if_pos hq] at hround
      exact .inl (by omega)
    · rw [if_neg hq] at hround
      exact .inr ⟨hq, rfl, hround.trans htaken⟩
  · have hkept : t.program = prog := hostAction_program ha h
    have hheld : t.heldWrite.toList.length ≤ 1 := by cases t.heldWrite <;> simp
    refine .inl ?_
    simp only [State.hostWork, hkept, hprog, List.length_cons]
    omega

/-- An enabled step of the host lowers its work, or is a round of a JOIN that is not done (43_control.md R165, R166). -/
theorem hostStep_lowers {s t : State} (hen : hostMoves s ≠ []) (h : hostStep s = .next t) :
    t.hostWork < s.hostWork ∨ (s.queue ≠ [] ∧ t.queue = s.queue ∧ t.hostWork = s.hostWork) := by
  unfold hostStep at h
  split at h
  · next w hheld =>
    have hroom : s.queueFull = false := by simpa [hostMoves, hheld] using hen
    obtain ⟨hprog, _, _, hw⟩ := writeCmd_hostSide h
    refine .inl ?_
    simp [State.hostWork, hprog, hw hroom, hheld]
  · next hheld =>
    split at h
    · next hprog => simp [hostMoves, hheld, hprog] at hen
    · next hprog => exact hostAction_lowers hprog h

/-! ### The turn -/

/-- Patience over and CORE's step due, the mover is CORE's while a command is in flight (43_control.md R168). -/
theorem freeMove_ne_host_of_coreDue {s : State} (hp : s.turn.patience = 0) (hd : s.turn.hostDue = false)
    (hq : s.queue ≠ []) : freeMove s ≠ some .host := by
  obtain ⟨mv, l, hcore⟩ := List.exists_cons_of_ne_nil (mt (coreMoves_eq_nil_iff s).mp hq)
  have hmv : mv ≠ .host := fun heq => host_not_mem_coreMoves s (by simp [hcore, heq])
  simpa [freeMove, hp, dueMove, hd, hcore] using hmv

/-- While a command is in flight, a free choice of the host uses up some of the turns. -/
theorem turn_left_passTurn_lt {s : State} (hmv : freeMove s = some .host) (hq : s.queue ≠ []) :
    s.passTurn.turn.left < s.turn.left := by
  rw [Turn.left, Turn.left, Prod.Lex.toLex_lt_toLex, State.passTurn]
  by_cases hp : s.turn.patience = 0
  · cases hd : s.turn.hostDue
    · exact absurd hmv (freeMove_ne_host_of_coreDue hp hd hq)
    · simp [hp]
  · rw [if_neg hp]
    exact .inr ⟨rfl, Nat.sub_one_lt hp⟩

/-! ### Every run comes to its end -/

/-- With no command in flight the queue has room, so that only a host with nothing to do has no step (00_scope.md R6). -/
theorem enabledMoves_eq_nil_iff (s : State) :
    enabledMoves s = [] ↔ s.program = [] ∧ s.heldWrite = none ∧ s.queue = [] := by
  rw [enabledMoves, List.append_eq_nil_iff, coreMoves_eq_nil_iff, ← and_assoc]
  refine and_congr_left fun hq => ?_
  have hroom : s.queueFull = false := queueFull_eq_false (by simp [hq, Platform.nq])
  cases hheld : s.heldWrite <;> simp [hostMoves, hheld, hroom]

/-- A free step lowers the host's work, or CORE's at no cost to the host's, or uses up some of the turns. -/
theorem work_lt_of_freeMove {s t : State} {mv : Move} (hmv : freeMove s = some mv)
    (h : takeMove mv s.passTurn = .next t) : t.work < s.work := by
  obtain ⟨hagenda, hturn⟩ := takeMove_keeps h
  simp only [State.work, Prod.Lex.toLex_lt_toLex]
  refine .inr ⟨congrArg List.length hagenda, ?_⟩
  rcases List.mem_append.mp (freeMove_mem hmv) with hhost | hcore
  · obtain rfl := eq_host_of_mem_hostMoves hhost
    rcases hostStep_lowers (s := s.passTurn) (List.ne_nil_of_mem hhost) h with hlt | ⟨hne, hq, hw⟩
    · exact .inl hlt
    · exact .inr ⟨hw, .inr ⟨coreWork_congr hq, hturn ▸ turn_left_passTurn_lt hmv hne⟩⟩
  · have hne : mv ≠ .host := fun heq => host_not_mem_coreMoves s (heq ▸ hcore)
    obtain ⟨hprog, hheld, _⟩ := takeMove_hostSide hne h
    refine .inr ⟨by simp [State.hostWork, hprog, hheld], .inl ?_⟩
    exact coreWork_lt_of_coreMove (s := s.passTurn) hcore h

/-- A step is idle in a finished state, or lowers the work. -/
theorem step_progress {s t : State} (h : step s = .next t) : Finished s ∨ t.work < s.work := by
  unfold step advance at h
  split at h
  · next mv rest hag =>
    have hlt : t.agenda.length < s.agenda.length := by
      rw [(takeMove_keeps h).1, hag]
      exact Nat.lt_succ_self _
    exact .inr (Prod.Lex.toLex_lt_toLex.mpr (.inl hlt))
  · next hag =>
    split at h
    · next hmv => exact .inr (work_lt_of_freeMove hmv h)
    · next hidle => exact .inl ⟨hag, (enabledMoves_eq_nil_iff s).mp ((freeMove_eq_none_iff s).mp hidle)⟩

/-- By induction on the work (43_control.md R168). -/
theorem comesToItsEnd (s : State) : ComesToItsEnd s := by
  induction hw : s.work using WellFoundedLT.induction generalizing s with
  | ind w ih =>
    subst hw
    cases hstep : step s with
    | fault f => exact ⟨1, .inr (.inr ⟨f, by rw [run_succ, hstep]⟩)⟩
    | refused r => exact ⟨1, .inr (.inl ⟨r, by rw [run_succ, hstep]⟩)⟩
    | next t =>
      rcases step_progress hstep with hfin | hlt
      · exact ⟨0, .inl ⟨s, rfl, hfin⟩⟩
      · obtain ⟨k, hk⟩ := ih _ hlt t rfl
        refine ⟨k + 1, ?_⟩
        rwa [run_succ, hstep]

/-! ### Weak fairness -/

theorem run_of_steps {run : Nat → State} (h : ∀ n, step (run n) = .next (run (n + 1))) (n k : Nat) :
    Sys2Proof.core.run k (run n) = .next (run (n + k)) := by
  induction k generalizing n with
  | zero => rfl
  | succ k ih =>
    rw [run_succ, h n, Nat.add_comm k, ← Nat.add_assoc]
    exact ih (n + 1)

/-- In a run that never stops some later state is finished, and there nothing is enabled (60_exceptions.md R187). -/
theorem weaklyFair_of_steps {run : Nat → State} (h : ∀ n, step (run n) = .next (run (n + 1))) : WeaklyFair run := by
  intro n mv
  obtain ⟨k, hend⟩ := comesToItsEnd (run n)
  rw [run_of_steps h] at hend
  obtain ⟨t, hrun, _, hdone⟩ | ⟨r, hrun⟩ | ⟨f, hrun⟩ := hend <;> cases hrun
  refine ⟨n + k, Nat.le_add_right n k, .inl ?_⟩
  rw [(enabledMoves_eq_nil_iff _).mpr hdone]
  exact List.not_mem_nil

/-- Settles O58: the two steps of CORE, the end of every run by its work, and fairness from that end. -/
theorem lanesAndRetirementAlwaysProgress : Obligations.LanesAndRetirementAlwaysProgress := by
  refine ⟨fun s rest pos c hq hc => ⟨fun co hco hag => ?_, fun hpend hag => ?_⟩, comesToItsEnd, fun _ h => ?_⟩
  · exact pendingLane_steps hq hc hco hag
  · exact finishedRecord_retires hc hpend hag
  · exact weaklyFair_of_steps h

end Sys2Proof.Machine
end

section
/-! The statements of the reducer family (40_reducer.md R102 to R111), from the lemmas on MULHI, MSUB, CORR and REDUCE that
ELEMOP needed. -/

namespace Sys2Proof.Machine

/-! ### The parts of REDUCE -/

/-- Settles O29: the product fits 64 bits, so its high half is the floored quotient. -/
theorem mulhiIsTheFlooredQuotient : Obligations.MulhiIsTheFlooredQuotient := mulhi_toInt

/-- On the side of `[0, p)` that the sign of x names, the candidate does not leave it (40_reducer.md R104). -/
theorem msub_mulhi_bound_of_sign {x r : Word} {p : BitVec 9} (h2 : 2 ≤ p.toNat) (h256 : p.toNat ≤ 256)
    (hr : r.toInt = (2 ^ 32 / p.toNat : Nat) - 1) :
    (0 ≤ x.toInt → 0 ≤ msub x (mulhi x r) p) ∧ (x.toInt < 0 → msub x (mulhi x r) p ≤ p.toNat - 1) := by
  obtain ⟨hlo, hhi⟩ := word_toInt_bounds x
  have hr' : r.toInt = 2 ^ 32 / (p.toNat : Int) - 1 := by rw [hr]; push_cast; rfl
  obtain ⟨hpos, hneg⟩ := candidate_bounds rfl hlo hhi (by omega) (by omega) hr'
  rw [msub, mulhi_toInt]
  exact ⟨fun h => (hpos h).1, fun h => (hneg h).2⟩

/-- Settles O30: the candidate is x less a multiple of p; the bounds are those of the quotient estimate. -/
theorem candidateIsWithinOneModulus : Obligations.CandidateIsWithinOneModulus := by
  intro x r p h2 h256 hr
  have hmod : msub x (mulhi x r) p % p.toNat = x.toInt % p.toNat := Int.sub_mul_emod_self_right _ _ _
  obtain ⟨hlo, hhi⟩ := msub_mulhi_bounds (x := x) h2 h256 hr
  exact ⟨hmod, hlo, hhi, msub_mulhi_bound_of_sign h2 h256 hr⟩

/-- Settles O31: at most one correction applies, and subtracting p from a value of at least p leaves none below 0. -/
theorem correctionIsBothTestsAtOnce : Obligations.CorrectionIsBothTestsAtOnce := by
  intro t p hlo hhi
  rw [corr_eq hlo hhi]
  refine ⟨rfl, ?_⟩
  rcases lt_or_ge t p.toNat with hlt | hge
  · rw [if_neg (not_le.mpr hlt), Int.sub_zero]
    split <;> omega
  · rw [if_pos hge, if_neg (c := t < 0) (by omega), if_neg (by omega), Int.add_zero]

/-! ### REDUCE and TRUNC8 -/

/-- Settles O32: CORR brings the candidate to the floored remainder, which a byte holds. -/
theorem reduceIsTheResidue : Obligations.ReduceIsTheResidue := fun _ _ _ free h2 h256 hr => reduce_toNat free h2 h256 hr

/-- Settles O33: each disjunct denies one condition of the contract domain. -/
theorem reduceOutsideItsDomainIsFree : Obligations.ReduceOutsideItsDomainIsFree := by
  intro x r p free hout
  refine reduce_of_not_inDomain x free (decide_eq_false fun ⟨h2, h256, hr⟩ => ?_)
  rcases hout with hsmall | hlarge | hinv
  · omega
  · omega
  · exact hinv hr

/-- Settles O34: the low byte of the pattern, and its reading as a signed remainder. -/
theorem truncationIsModulo256 : Obligations.TruncationIsModulo256 := by
  intro x
  have hlow : (trunc8 x).toNat = x.toNat % 256 := by
    rw [trunc8, BitVec.extractLsb'_toNat, Nat.shiftRight_zero]
  exact ⟨hlow, trunc8_toNat x⟩

/-- Settles O35: both bytes are the floored remainder by 256. -/
theorem truncationIsReductionBy256 : Obligations.TruncationIsReductionBy256 := by
  intro x free
  have hreduce : ((reduce x 16777215#32 256#9 free).toNat : Int) = x.toInt % 256 :=
    reduce_toNat free (by decide) (by decide) (by decide)
  exact BitVec.eq_of_toNat_eq (Int.natCast_inj.mp ((trunc8_toNat x).trans hreduce.symm))

end Sys2Proof.Machine
end

section
/-! The statements of the single-converter family on one lane (41_single_converter.md R121 to R126,
42_batched_converter.md R142, R143): the width of the grid, an inert lane, and the group of an active lane, said once for
both commands. -/

namespace Sys2Proof.Machine

/-! ### The width of the grid (41_single_converter.md R121) -/

theorem lanesPerBlock_pos (p : Platform) : 0 < p.lanesPerBlock := Nat.succ_pos _

/-- Where whole blocks cover the groups, no lane is inert (41_single_converter.md R121). -/
theorem gridWidth_of_dvd {p : Platform} {n : Nat} (h : n / 4 % p.lanesPerBlock = 0) : p.gridWidth n = n / 4 := by
  have hb := lanesPerBlock_pos p
  obtain ⟨y, hy⟩ := Nat.dvd_of_mod_eq_zero h
  rw [Platform.gridWidth, hy, Nat.mul_add_div hb, Nat.div_eq_of_lt (by omega), Nat.add_zero]

/-- Settles O28: the width is a whole number of blocks, and the rounding adds less than one block. -/
theorem gridWidthRoundsUpToBlocks : Obligations.GridWidthRoundsUpToBlocks := by
  intro p n
  refine ⟨Nat.mul_mod_right _ _, le_gridWidth p n, ?_, gridWidth_of_dvd, gridWidth_of_dvd (n := 0) (Nat.zero_mod _)⟩
  have hb := lanesPerBlock_pos p
  have hle : p.gridWidth n ≤ n / 4 + (p.lanesPerBlock - 1) := Nat.mul_div_le _ _
  omega

/-! ### One lane -/

/-- Settles O24: beyond the last group either command's lane takes the branch that does nothing but leave `PEND`. -/
theorem inertLaneDoesNothing : Obligations.InertLaneDoesNothing := by
  intro s rest pos c co hag hc hco hg
  have hinert : active co.g c.n.toNat = false := decide_eq_false (by omega)
  rw [step_of_agenda hag]
  simp [takeMove, laneMove, laneStep_eq, State.dropLane, hc, hco, hinert]

/-- The step lets a lane apply index `i` to the four elements at `la` and store the four bytes at `sa`, and changes nothing
else of the machine but the agenda, the lane's coordinate and the draw counter (41_single_converter.md R126). -/
def ConvertsGroup (s : State) (rest : List Move) (pos : Nat) (c : Command) (co : Coord) (i la sa : Nat) : Prop :=
  ∃ t, step s = .next t ∧
    (∀ j, j < 4 → t.mem.read (sa + j) = elemOp s.plat i (s.mem.accRead (la + 4 * j)) (Config.any8 (s.draws + j))) ∧
    (∀ a, ¬(sa ≤ a ∧ a < sa + 4) → t.mem.read a = s.mem.read a) ∧
    t.queue = s.queue.set pos { c with pend := c.pend.erase co } ∧
    t.accBase = s.accBase ∧ t.resBase = s.resBase ∧ t.count = s.count ∧ t.plat = s.plat ∧ t.agenda = rest ∧
    t.heldWrite = s.heldWrite ∧ t.program = s.program ∧ t.lastRead = s.lastRead ∧ t.unjoined = s.unjoined ∧
    t.turn = s.turn

/-- A group below `n/4` of a sub-buffer that the command has ends within its elements; the grid is not asked for. -/
theorem group_within_elements {c : Command} {co : Coord} (hg : co.g < c.n.toNat / 4)
    (hk : c.op = .convertBatched → co.k < c.idx) : c.laneOffset co + 4 * co.g + 4 ≤ c.elements := by
  unfold Command.laneOffset Command.elements Command.subBuffers Command.subOffset
  cases hop : c.op with
  | convert => dsimp only; omega
  | convertBatched =>
    have hnext : (co.k + 1) * c.n.toNat ≤ c.idx * c.n.toNat := Nat.mul_le_mul_right _ (hk hop)
    rw [Nat.succ_mul] at hnext
    dsimp only
    omega

/-- A pending active lane of either command converts its group, if the extents end in the address space: its loads and
stores then do (20_memory.md R56). -/
theorem convertsGroup_of_active {s : State} {rest : List Move} {pos : Nat} {c : Command} {co : Coord}
    (hag : s.agenda = .lane pos co :: rest) (hc : s.queue[pos]? = some c) (hco : co ∈ c.pend)
    (hg : co.g < c.n.toNat / 4) (hk : c.op = .convertBatched → co.k < c.idx) (hacc : c.accExt.hi ≤ addrSpace)
    (hres : c.resExt.hi ≤ addrSpace) :
    ConvertsGroup s rest pos c co (c.laneIndex co) (c.loadAddr (c.laneOffset co) co.g)
      (c.storeAddr (c.laneOffset co) co.g) := by
  have hin := group_within_elements hg hk
  have hload : c.loadAddr (c.laneOffset co) co.g + 16 ≤ addrSpace := by
    have hend : c.ab.toNat + 4 * c.elements ≤ addrSpace := hacc
    unfold Command.loadAddr
    omega
  have hstore : c.storeAddr (c.laneOffset co) co.g + 4 ≤ addrSpace := by
    have hend : c.rb.toNat + c.elements ≤ addrSpace := hres
    unfold Command.storeAddr
    omega
  refine ⟨_, (step_of_agenda hag).trans (laneMove_active (s := { s with agenda := rest }) hc hco (decide_eq_true hg)
    hload hstore), fun j hj => read_vst4_in _ _ _ _ _ _ _ j hj, fun a ha => read_vst4_out _ _ _ _ _ _ _ a ha, ?_⟩
  simp

/-- Settles O21: a CONVERT lane works at offset 0 with the command's index. -/
theorem singleLaneConvertsItsGroup : Obligations.SingleLaneConvertsItsGroup := by
  intro s rest pos c co hag hc hop hco hg hacc hres
  have h := convertsGroup_of_active hag hc hco hg (fun hb => by simp [hop] at hb) hacc hres
  simp only [Command.laneIndex, Command.laneOffset, Command.loadAddr, Command.storeAddr, hop, Nat.mul_zero,
    Nat.add_zero] at h
  exact h

/-- Settles O22: a CONVERT_BATCHED lane works at offset `k n` with index `k`. -/
theorem batchedLaneConvertsItsGroup : Obligations.BatchedLaneConvertsItsGroup := by
  intro s rest pos c co hag hc hop hco hg hk hacc hres
  have h := convertsGroup_of_active hag hc hco hg (fun _ => hk) hacc hres
  simp only [Command.laneIndex, Command.laneOffset, Command.subOffset, Command.loadAddr, Command.storeAddr, hop] at h
  exact h

end Sys2Proof.Machine
end

section
/-! The statements of the single-converter family on whole commands (41_single_converter.md R127, R128,
42_batched_converter.md R145, R147): launch, lanes, retirement. The idea: `Command.LanesStored` speaks of one record and
holds of a record that has just been launched; each lane keeps it and no lane stores outside the residue extent, so when the
last lane has stepped every element with a usable index is stored, and the elements are still those of the launch. -/

namespace Sys2Proof.Machine

/-- A record with no lane pending has stored every element with a usable index (41_single_converter.md R128). -/
theorem Command.LanesStored.elementStored {c : Command} {s : State} {e : Nat} (h : c.LanesStored s)
    (hn : c.n.toNat % 4 = 0) (hpend : c.pend = []) (he : e < c.elements) (hv : s.plat.ValidIndex (c.elementIndex e)) :
    c.ElementStored s e := by
  obtain ⟨co, hg, ha, j, hj, rfl⟩ := exists_lane_of_element s.plat hn he
  rw [elementIndex_of_lane hn ha hj] at hv
  exact (laneStored_iff hn ha).mp (h co hg (by simp [hpend]) ha hv) j hj

/-- The state after all lanes of the record `c` at place `pos` have stepped, with what that leaves undetermined: memory and
the draw counter. -/
def State.afterLanes (s : State) (pos : Nat) (c : Command) (rest : List Move) (m : Memory) (d : Nat) : State :=
  { s with queue := s.queue.set pos { c with pend := [] }, agenda := rest, mem := m, draws := d }

/-- The agenda runs all pending lanes of a record, in any order and with usable indices or not: only bytes of its residue
extent change, and every lane has stored its group (41_single_converter.md R127). `k` is how many steps follow. -/
theorem run_lanes {pos : Nat} {l : List Coord} {c : Command} {s : State} (rest : List Move) (k : Nat)
    (hc : s.queue[pos]? = some c) (hok : CommandOk s.plat c) (hl : l.Perm c.pend) (hstored : c.LanesStored s) :
    ∃ m d, Sys2Proof.core.run (l.length + k) { s with agenda := l.map (.lane pos) ++ rest } =
        Sys2Proof.core.run k (s.afterLanes pos c rest m d) ∧
      (∀ a, ¬c.resExt.has a → m.read a = s.mem.read a) ∧
      Command.LanesStored { c with pend := [] } (s.afterLanes pos c rest m d) := by
  induction l generalizing s c with
  | nil =>
    have hpend : c.pend = [] := hl.nil_eq.symm
    have hsame : ({ c with pend := [] } : Command) = c := by rw [← hpend]
    refine ⟨s.mem, s.draws, ?_, fun _ _ => rfl, ?_⟩
    · obtain ⟨hpos, rfl⟩ := List.getElem?_eq_some_iff.mp hc
      simp [State.afterLanes, hsame]
    · rw [hsame]
      exact hstored
  | cons co l ih =>
    obtain ⟨hco, hl'⟩ := List.cons_perm_iff_perm_erase.mp hl
    obtain ⟨d, hstep⟩ := step_lane hc hok hco (l.map (.lane pos) ++ rest)
    have hpos : pos < s.queue.length := (List.getElem?_eq_some_iff.mp hc).1
    obtain ⟨m, d', hrun, hframe, hdone⟩ := ih
      (s := { s.dropLane pos c co with mem := c.laneMemory s.plat s.draws s.mem co, draws := d })
      (List.getElem?_set_self hpos) (hok.erase_pend co) hl'
      (Command.LanesStored.dropLane hok hco rfl rfl hstored)
    refine ⟨m, d', ?_, fun a ha => (hframe a ha).trans ?_, hdone⟩
    · rw [List.length_cons, Nat.add_right_comm, run_succ, List.map_cons, List.cons_append, hstep]
      refine Eq.trans hrun ?_
      simp [State.afterLanes]
    · by_contra hne
      exact ha (resExt_has_of_laneMemory_changes hok hco hne)

/-- The host's step that writes the word of an admitted command appends its record (43_control.md R163). -/
theorem step_launch {s : State} {i : Instr} {o : LaunchOperands} (rest : List Move) (hwf : i.wf = true)
    (hroom : s.queue.length < s.plat.nq) (ho : s.operands = some o)
    (ha : Admitted s (newCommand s.plat (opOf i) (indexOf i) o)) :
    step { s with heldWrite := some (encode i), agenda := .host :: rest } =
      .next (State.enqueue { s with heldWrite := none, agenda := rest } (newCommand s.plat (opOf i) (indexOf i) o)) := by
  rw [step_of_heldWrite rfl rfl, writeCmd, decodeOfEncodeIsTheCommand i hwf]
  exact exec_admitted hroom ho (ha.of_same rfl rfl)

/-- The retirement of a finished record, whole (43_control.md R167). -/
theorem step_retire {s : State} {rest : List Move} {pos : Nat} {c : Command} (hag : s.agenda = .retire pos :: rest)
    (hc : s.queue[pos]? = some c) (hpend : c.pend = []) :
    step s = .next (State.retire { s with agenda := rest } pos c) := by
  rw [step_of_agenda hag]
  simp [takeMove, retireMove, hc, hpend]

/-- The state after the whole of a command whose record was `c`, with what that leaves undetermined: memory and the draw
counter. The host does not own the buffers yet (20_memory.md R70; log 8). -/
def State.afterCommand (s : State) (c : Command) (rest : List Move) (m : Memory) (d : Nat) : State :=
  { s with
    heldWrite := none, unjoined := s.unjoined ++ [{ c with pend := [] }], agenda := rest, mem := m, draws := d }

/-- Launch, the lanes in any order, and retirement of either command: its record has come and gone, and its lanes have stored
their groups (41_single_converter.md R127, R128). -/
theorem run_wholeCommand {s : State} {i : Instr} {o : LaunchOperands} {c : Command} {order : List Coord}
    (rest : List Move) (hwf : i.wf = true) (hroom : s.queue.length < s.plat.nq) (ho : s.operands = some o)
    (hnew : newCommand s.plat (opOf i) (indexOf i) o = c) (ha : Admitted s c) (horder : order.Perm c.pend) :
    ∃ m d, Sys2Proof.core.run (order.length + 2)
        { s with heldWrite := some (encode i), agenda := wholeCommand s.queue.length order ++ rest } =
        .next (s.afterCommand c rest m d) ∧
      (∀ a, ¬c.resExt.has a → m.read a = s.mem.read a) ∧
      Command.LanesStored { c with pend := [] } (s.afterCommand c rest m d) := by
  subst hnew
  have hok := commandOk_of_admitted ha
  obtain ⟨m, d, hlanes, hframe, hstored⟩ := run_lanes
    (s := State.enqueue { s with heldWrite := none } (newCommand s.plat (opOf i) (indexOf i) o))
    (.retire s.queue.length :: rest) 1 List.getElem?_concat_length hok horder
    (lanesStored_newCommand _ _ o rfl)
  refine ⟨m, d, ?_, hframe, hstored⟩
  rw [wholeCommand, List.cons_append, List.append_assoc, List.singleton_append, run_succ,
    step_launch _ hwf hroom ho ha]
  refine hlanes.trans ?_
  rw [run_succ, step_retire (c := { newCommand s.plat (opOf i) (indexOf i) o with pend := [] }) rfl
    (by simp [State.afterLanes]) rfl]
  simp [State.afterLanes, State.afterCommand, State.retire, State.enqueue, Host.Core.run,
    List.eraseIdx_append_of_length_le (Nat.le_refl _)]

/-- Either command converts its buffers: each element is as it was at the launch, as no lane stores in the accumulator extent
(20_memory.md R61). -/
theorem convertsItsBuffer_of_admitted {s : State} {i : Instr} {o : LaunchOperands} {c : Command} {order : List Coord}
    (rest : List Move) (hwf : i.wf = true) (hroom : s.queue.length < s.plat.nq) (ho : s.operands = some o)
    (hnew : newCommand s.plat (opOf i) (indexOf i) o = c) (ha : Admitted s c) (horder : order.Perm c.pend) :
    ConvertsItsBuffer s i c order rest := by
  obtain ⟨m, d, hrun, hframe, hstored⟩ := run_wholeCommand rest hwf hroom ho hnew ha horder
  refine ⟨_, hrun, fun e he hv => ?_, hframe, rfl, rfl, rfl, rfl, rfl, rfl⟩
  have hn : c.n.toNat % 4 = 0 := by have := ha.granularity; omega
  have hacc : m.accRead (c.ab.toNat + 4 * e) = s.mem.accRead (c.ab.toNat + 4 * e) :=
    accRead_congr_of_accExt he fun a hin => hframe a fun hres => ha.notInPlace a ⟨hin, hres⟩
  exact hacc ▸ hstored.elementStored hn rfl he hv

/-- Settles O37: the record of the statement is the one that the launch creates, its lanes the grid. -/
theorem convertConvertsItsBuffer : Obligations.ConvertConvertsItsBuffer :=
  fun _ _ _ _ rest hwf _ hroom ho ha horder => convertsItsBuffer_of_admitted rest hwf hroom ho rfl ha horder

/-- Settles O38: as for CONVERT, with the grid of all sub-buffers. -/
theorem convertBatchedConvertsItsBuffers : Obligations.ConvertBatchedConvertsItsBuffers :=
  fun _ _ _ _ rest hwf _ hroom ho ha horder => convertsItsBuffer_of_admitted rest hwf hroom ho rfl ha horder

end Sys2Proof.Machine
end

section
/-! The statement of the single-converter family on free steps (43_control.md R168, R170): which moves are enabled, said once
for each agent, and the step where the agenda names no mover. -/

namespace Sys2Proof.Machine

/-! ### The enabled moves -/

/-- The host's step is enabled where it has an action, or a held write and room in the queue (43_control.md R166). -/
theorem mem_hostMoves (s : State) (mv : Move) : mv ∈ hostMoves s ↔ mv = .host ∧
    ((s.heldWrite = none ∧ s.program ≠ []) ∨ (s.heldWrite ≠ none ∧ s.queue.length < s.plat.nq)) := by
  unfold hostMoves
  cases s.heldWrite with
  | none => cases s.program <;> simp
  | some w => by_cases hroom : s.queue.length < s.plat.nq <;> simp [State.queueFull, hroom]

/-- A record's retirement is enabled where it is finished, and else its pending lanes are (R126, R167). -/
theorem mem_recordMoves (pos : Nat) (c : Command) (mv : Move) :
    mv ∈ recordMoves pos c ↔ (mv = .retire pos ∧ c.pend = []) ∨ ∃ co ∈ c.pend, mv = .lane pos co := by
  unfold recordMoves
  cases h : c.pend <;> simp [eq_comm]

/-- Every move but the host's is enabled as a step of CORE, or not at all. -/
theorem mem_enabledMoves_of_ne_host {s : State} {mv : Move} (hmv : mv ≠ .host) :
    mv ∈ enabledMoves s ↔ ∃ pos c, s.queue[pos]? = some c ∧
      ((mv = .retire pos ∧ c.pend = []) ∨ ∃ co ∈ c.pend, mv = .lane pos co) := by
  simp only [enabledMoves, List.mem_append, mem_hostMoves, hmv, false_and, false_or, mem_coreMoves, mem_recordMoves]

theorem host_mem_enabledMoves_iff (s : State) : Move.host ∈ enabledMoves s ↔
    (s.heldWrite = none ∧ s.program ≠ []) ∨ (s.heldWrite ≠ none ∧ s.queue.length < s.plat.nq) := by
  simp only [enabledMoves, List.mem_append, mem_hostMoves, host_not_mem_coreMoves, or_false, true_and]

theorem lane_mem_enabledMoves_iff (s : State) (pos : Nat) (co : Coord) :
    Move.lane pos co ∈ enabledMoves s ↔ ∃ c, s.queue[pos]? = some c ∧ co ∈ c.pend := by
  simp [mem_enabledMoves_of_ne_host]

theorem retire_mem_enabledMoves_iff (s : State) (pos : Nat) :
    Move.retire pos ∈ enabledMoves s ↔ ∃ c, s.queue[pos]? = some c ∧ c.pend = [] := by
  simp [mem_enabledMoves_of_ne_host]

/-- A table load is no enabled step: its cause is outside CORE and the host (10_state.md R34; log 5). -/
theorem loadEntry_not_mem_enabledMoves (s : State) (copy : TableCopy) (i : Nat) (d : Descriptor) :
    Move.loadEntry copy i d ∉ enabledMoves s := by
  simp [mem_enabledMoves_of_ne_host]

/-! ### The step -/

/-- Where the agenda names no mover, the mover is the free one (log 5). -/
theorem step_of_freeMove {s : State} {mv : Move} (hag : s.agenda = []) (h : freeMove s = some mv) :
    step s = takeMove mv s.passTurn := by
  simp [step, advance, hag, h]

/-- With nothing enabled the machine is idle (60_exceptions.md R187; log 26). -/
theorem step_of_enabledMoves_nil {s : State} (hag : s.agenda = []) (h : enabledMoves s = []) : step s = .next s := by
  simp [step, advance, hag, (freeMove_eq_none_iff s).mpr h]

/-- Patience over, the mover is the step that is due, if it is enabled (43_control.md R168). -/
theorem freeMove_of_dueMove {s : State} {mv : Move} (hp : s.turn.patience = 0) (h : dueMove s = some mv) :
    freeMove s = some mv := by
  simp [freeMove, hp, h]

theorem dueMove_of_hostDue {s : State} (hd : s.turn.hostDue = true) (hen : Move.host ∈ enabledMoves s) :
    dueMove s = some .host := by
  have hmem : Move.host ∈ hostMoves s :=
    (mem_hostMoves s _).mpr ⟨rfl, (host_mem_enabledMoves_iff s).mp hen⟩
  obtain ⟨mv, l, hl⟩ := List.exists_cons_of_ne_nil (List.ne_nil_of_mem hmem)
  have hhost : mv = .host := eq_host_of_mem_hostMoves (s := s) (by simp [hl])
  simp [dueMove, hd, hl, hhost]

/-- CORE's step that is due is one of the oldest record, which has one whether it is finished or not (43_control.md R168). -/
theorem dueMove_of_coreDue {s : State} (hd : s.turn.hostDue = false) (hq : s.queue ≠ []) :
    ∃ mv, dueMove s = some mv ∧ (mv = .retire 0 ∨ ∃ co, mv = .lane 0 co) := by
  obtain ⟨c, q, hcq⟩ := List.exists_cons_of_ne_nil hq
  cases hpend : c.pend with
  | nil => exact ⟨.retire 0, by simp [dueMove, hd, coreMoves, hcq, recordMoves, hpend], .inl rfl⟩
  | cons co l => exact ⟨.lane 0 co, by simp [dueMove, hd, coreMoves, hcq, recordMoves, hpend], .inr ⟨co, rfl⟩⟩

/-- Settles O60: the free mover is enabled, or there is none; patience over, it is the step that is due. -/
theorem freeStepsAreTheEnabledOnes : Obligations.FreeStepsAreTheEnabledOnes := by
  intro s hag
  refine ⟨?_, fun hp hd hen => ?_, fun hp hd hq => ?_, host_mem_enabledMoves_iff s, lane_mem_enabledMoves_iff s,
    retire_mem_enabledMoves_iff s, reset_not_mem_enabledMoves s, loadEntry_not_mem_enabledMoves s⟩
  · cases hmv : freeMove s with
    | none =>
      have hnone : enabledMoves s = [] := (freeMove_eq_none_iff s).mp hmv
      exact .inl ⟨hnone, step_of_enabledMoves_nil hag hnone⟩
    | some mv => exact .inr ⟨mv, freeMove_mem hmv, step_of_freeMove hag hmv⟩
  · exact step_of_freeMove hag (freeMove_of_dueMove hp (dueMove_of_hostDue hd hen))
  · obtain ⟨mv, hdue, holdest⟩ := dueMove_of_coreDue hd hq
    exact ⟨mv, step_of_freeMove hag (freeMove_of_dueMove hp hdue), holdest⟩

end Sys2Proof.Machine
end

section
/-! The statement of the batched-converter family on slices (42_batched_converter.md R148). The idea: a finished command
holds the residues of its elements, element `k n + j` of a CONVERT_BATCHED has index `k`, and the index and the element alone
fix the residue byte, whatever the state and wherever the buffers lie. -/

namespace Sys2Proof.Machine

/-! ### What fixes a residue byte -/

/-- Two platforms that have the same entry at an index agree on whether it is usable (10_state.md R31, R32). -/
theorem validIndex_congr {p q : Platform} {i : Nat} (h : q.lookup i = p.lookup i) : q.ValidIndex i ↔ p.ValidIndex i := by
  rw [Platform.ValidIndex, Platform.ValidIndex, h]

/-- The logical modulus of an index is that of its entry (41_single_converter.md R128). -/
theorem modulus_congr {p q : Platform} {i : Nat} (h : q.lookup i = p.lookup i) : q.modulus i = p.modulus i := by
  rw [Platform.modulus, Platform.modulus, h]

/-- An element has one residue by an entry, whichever platform holds the entry (42_batched_converter.md R148). -/
theorem IsResidue.unique {p q : Platform} {i : Nat} {x : Word} {y z : Byte} (h : q.lookup i = p.lookup i)
    (hy : IsResidue p i x y) (hz : IsResidue q i x z) : y = z := by
  rw [IsResidue] at hy hz
  rw [modulus_congr h, ← hy] at hz
  exact BitVec.eq_of_toNat_eq (Int.ofNat_inj.mp hz.symm)

/-! ### Elements of a buffer and of a slice -/

/-- The elements of a CONVERT are those of its one buffer (20_memory.md R60). -/
theorem elements_of_convert {c : Command} (hop : c.op = .convert) : c.elements = c.n.toNat := by
  rw [Command.elements, Command.subBuffers, hop, Nat.one_mul]

/-- Element `j` of slice `k` is an element of a CONVERT_BATCHED of more than `k` slices (20_memory.md R60). -/
theorem slice_lt_elements {b : Command} {k j : Nat} (hop : b.op = .convertBatched) (hk : k < b.idx)
    (hj : j < b.n.toNat) : k * b.n.toNat + j < b.elements := by
  rw [Command.elements, Command.subBuffers, hop]
  calc k * b.n.toNat + j < (k + 1) * b.n.toNat := by rw [Nat.succ_mul]; omega
    _ ≤ b.idx * b.n.toNat := Nat.mul_le_mul_right _ hk

theorem elementIndex_of_convert {c : Command} (hop : c.op = .convert) (e : Nat) : c.elementIndex e = c.idx := by
  rw [Command.elementIndex, hop]

/-- Slice `k` of a CONVERT_BATCHED has the index `k` (20_memory.md R54). -/
theorem elementIndex_slice {b : Command} {k j : Nat} (hop : b.op = .convertBatched) (hj : j < b.n.toNat) :
    b.elementIndex (k * b.n.toNat + j) = k := by
  simp only [Command.elementIndex, hop]
  rw [Nat.mul_comm, Nat.mul_add_div (by omega), Nat.div_eq_of_lt hj, Nat.add_zero]

/-! ### The statement -/

/-- Settles O41: both bytes are residues of one element by one entry. -/
theorem batchedSliceEqualsSingle : Obligations.BatchedSliceEqualsSingle := by
  intro s s' b c k hq hq' hstored hstored' hb hc hopb hopc hpend hpend' hidx hk hn hv hlookup hsame j hj
  have hib : b.elementIndex (k * b.n.toNat + j) = k := elementIndex_slice hopb hj
  have hic : c.elementIndex j = k := (elementIndex_of_convert hopc j).trans hidx
  have hbatched := finishedCommandHoldsItsResidues s b hq hstored hb hpend _ (slice_lt_elements hopb hk hj)
    (hib.symm ▸ hv)
  have hsingle := finishedCommandHoldsItsResidues s' c hq' hstored' hc hpend' j
    (by rwa [elements_of_convert hopc, hn]) (hic.symm ▸ (validIndex_congr hlookup).mpr hv)
  rw [hib] at hbatched
  rw [hic, hsame j hj] at hsingle
  exact hbatched.unique hlookup hsingle

end Sys2Proof.Machine
end

section
/-! The statements of the control family on command words and launches (43_control.md R160 to R167): which command a step of
the host runs, when a launch is answered and what it leaves unchanged, the hold while the queue is full, reads of the operand
registers, and retirement. -/

namespace Sys2Proof.Machine

/-! ### What a launch answers (43_control.md R162, R163) -/

/-- A command that is answered holds, or is admitted and appends its record. -/
theorem exec_next_cases {i : Instr} {s t : State} (h : exec i s = .next t) :
    (s.plat.nq ≤ s.queue.length ∧ t = s.hold (encode i)) ∨
    (s.queue.length < s.plat.nq ∧ ∃ o, s.operands = some o ∧ Admitted s (newCommand s.plat (opOf i) (indexOf i) o) ∧
      t = s.enqueue (newCommand s.plat (opOf i) (indexOf i) o)) := by
  rw [exec_eq_launch] at h
  rcases launch_cases (encode i) (opOf i) (indexOf i) s with ⟨hfull, h'⟩ | ⟨_, r, h'⟩ | ⟨hroom, o, ho, ha, h'⟩ <;>
    rw [h'] at h <;> cases h
  · exact .inl ⟨(queueFull_iff s).mp hfull, rfl⟩
  · refine .inr ⟨?_, o, ho, ha, rfl⟩
    rwa [← Bool.not_eq_true, queueFull_iff, Nat.not_le] at hroom

/-- A command has no outcome but to be answered or refused (60_exceptions.md R175, R178). -/
theorem exec_next_or_refused (i : Instr) (s : State) : (∃ t, exec i s = .next t) ∨ ∃ r, exec i s = .refused r := by
  cases h : exec i s with
  | next t => exact .inl ⟨t, rfl⟩
  | refused r => exact .inr ⟨r, rfl⟩
  | fault f => exact absurd ((exec_eq_launch i s).symm.trans h) (launch_ne_fault _ _ _ _ f)

/-- Settles O15: an answered launch that has room was admitted, an admitted one is answered, and there is no fault. -/
theorem launchedExactlyWhenAdmitted : Obligations.LaunchedExactlyWhenAdmitted := by
  intro i s hroom
  have hiff : (∃ t, exec i s = .next t) ↔
      ∃ o, s.operands = some o ∧ Admitted s (newCommand s.plat (opOf i) (indexOf i) o) := by
    constructor
    · rintro ⟨t, h⟩
      rcases exec_next_cases h with ⟨hfull, _⟩ | ⟨_, o, ho, ha, _⟩
      · omega
      · exact ⟨o, ho, ha⟩
    · rintro ⟨o, ho, ha⟩
      exact ⟨_, exec_admitted hroom ho ha⟩
  exact ⟨hiff, fun hno => (exec_next_or_refused i s).resolve_left (mt hiff.mp hno)⟩

/-- Settles O17: a hold sets the held word, and an append the queue. -/
theorem launchChangesTheQueueOnly : Obligations.LaunchChangesTheQueueOnly := by
  intro i s t h
  rcases exec_next_cases h with ⟨hfull, rfl⟩ | ⟨hroom, o, ho, _, rfl⟩
  · simp [hfull]
  · simp [hroom, ho]

/-! ### Why a launch is refused (43_control.md R162, 60_exceptions.md R178) -/

/-- Where the operands of a launch are missing, one of the three registers is unwritten (30_encoding.md R88). -/
theorem unwritten_of_operands_eq_none {s : State} (h : s.operands = none) :
    s.count = none ∨ s.accBase = none ∨ s.resBase = none := by
  by_contra hall
  simp only [not_or, ← ne_eq, Option.ne_none_iff_exists'] at hall
  obtain ⟨⟨n, hn⟩, ⟨ab, hab⟩, ⟨rb, hrb⟩⟩ := hall
  exact Option.some_ne_none _ ((operands_eq_some hn hab hrb).symm.trans h)

theorem count_of_operands {s : State} {o : LaunchOperands} (h : s.operands = some o) : s.count = some o.n := by
  unfold State.operands at h
  split at h <;> cases h
  assumption

/-- A refused command misses an operand, or fails one of the checks on the record it would create. -/
theorem exec_refused_cases {i : Instr} {s : State} {r : Refusal} (h : exec i s = .refused r) :
    (s.operands = none ∧ r = .operandUnwritten) ∨
    ∃ o, s.operands = some o ∧ (false, r) ∈ admissionChecks s (newCommand s.plat (opOf i) (indexOf i) o) := by
  rw [exec_eq_launch] at h
  unfold launch at h
  split at h
  · cases h
  · split at h
    · next ho => cases h; exact .inl ⟨ho, rfl⟩
    · next o ho =>
      split at h <;> cases h
      next hfail => exact .inr ⟨o, ho, mem_of_firstFailure hfail⟩

/-- The check of the index fails where the index is too large for the command (R162 checks 5 and 6). -/
theorem reasonHolds_of_indexCheck {s : State} {i : Instr} {o : LaunchOperands} {r : Refusal}
    (h : (false, r) = indexCheck s.plat (newCommand s.plat (opOf i) (indexOf i) o)) : ReasonHolds s i r := by
  cases i with
  | convert idx =>
    obtain ⟨hidx, rfl⟩ := Prod.mk.inj h
    exact ⟨idx, rfl, Nat.le_of_not_lt (of_decide_eq_false hidx.symm)⟩
  | convertBatched m =>
    obtain ⟨hm, rfl⟩ := Prod.mk.inj h
    exact ⟨m, rfl, Nat.lt_of_not_le (of_decide_eq_false hm.symm)⟩

theorem exists_not_accessible {p : Platform} {e : Extent} (h : p.accessible e = false) :
    ∃ a, e.has a ∧ ¬p.AccessibleByte a := by
  obtain ⟨a, ha, hno⟩ := not_forall₂.mp (mt (accessible_iff p e).mpr (by simp [h]))
  exact ⟨a, ha, hno⟩

/-- Two records that are not apart share a byte (20_memory.md R64). -/
theorem exists_common_byte {c d : Command} (h : c.apart d = false) :
    ∃ a, (c.accExt.has a ∨ c.resExt.has a) ∧ (d.accExt.has a ∨ d.resExt.has a) := by
  have hno : ¬c.Disjoint d := mt (apart_iff c d).mpr (by simp [h])
  simpa only [Command.Disjoint, not_forall, not_not] using hno

/-- What the reason of a failed check says is the failure of the check, byte by byte where the rule speaks of bytes. -/
theorem reasonHolds_of_failedCheck {s : State} {i : Instr} {o : LaunchOperands} {r : Refusal} (ho : s.operands = some o)
    (h : (false, r) ∈ admissionChecks s (newCommand s.plat (opOf i) (indexOf i) o)) : ReasonHolds s i r := by
  simp only [admissionChecks, List.mem_cons, List.not_mem_nil, or_false, Prod.mk.injEq] at h
  rcases h with ⟨hn, rfl⟩ | h | ⟨hbase, rfl⟩ | ⟨hend, rfl⟩ | ⟨hacc, rfl⟩ | ⟨hmeet, rfl⟩ | ⟨hall, rfl⟩ | ⟨htab, rfl⟩
  · exact ⟨o.n, count_of_operands ho, of_decide_eq_false hn.symm⟩
  · exact reasonHolds_of_indexCheck h
  · exact ⟨o, ho, not_and_or.mp (of_decide_eq_false hbase.symm)⟩
  · refine ⟨o, ho, ?_⟩
    have := of_decide_eq_false hend.symm
    rw [addrSpace] at this
    omega
  · rcases Bool.and_eq_false_iff.mp hacc.symm with hacc | hres
    · obtain ⟨a, ha, hno⟩ := exists_not_accessible hacc
      exact ⟨o, a, ho, hno, .inl ha⟩
    · obtain ⟨a, ha, hno⟩ := exists_not_accessible hres
      exact ⟨o, a, ho, hno, .inr ha⟩
  · obtain ⟨a, ha⟩ := (meets_iff _ _).mp ((Bool.not_eq_false' _).mp hmeet.symm)
    exact ⟨o, a, ho, ha⟩
  · obtain ⟨d, hd, hmeet⟩ := List.all_eq_false.mp hall.symm
    obtain ⟨a, hc, ha⟩ := exists_common_byte (Bool.eq_false_of_not_eq_true hmeet)
    exact ⟨o, a, d, ho, hd, hc, ha⟩
  · obtain ⟨t, ht, hne⟩ := not_forall₂.mp (mt (tableConsistent_iff s.plat).mpr (by simp [← htab]))
    exact ⟨t, ht, hne⟩

/-- Settles O16: the reason is a missing operand, or that of a failed check. -/
theorem refusalReasonIsTrue : Obligations.RefusalReasonIsTrue := by
  intro i s r h
  rcases exec_refused_cases h with ⟨hnone, rfl⟩ | ⟨o, ho, hfail⟩
  · exact unwritten_of_operands_eq_none hnone
  · exact reasonHolds_of_failedCheck ho hfail

/-! ### Writes to `CMD` while the queue is full (43_control.md R166, 60_exceptions.md R180) -/

/-- A word of a command is that command's word, so a full queue holds every word as it is. -/
theorem writeCmd_of_full {s : State} (w : Word) (hfull : s.plat.nq ≤ s.queue.length) :
    writeCmd w s = .next (s.hold w) := by
  have hfull := (queueFull_iff s).mpr hfull
  unfold writeCmd
  split
  · next i hi =>
    obtain ⟨_, hword⟩ := encodeOfDecodeIsTheWord w i hi
    rw [exec_eq_launch, hword, launch, if_pos hfull]
  · rw [if_pos hfull]

/-- Settles O19: the host's action is a write to `CMD`. -/
theorem fullQueueHoldsEveryWord : Obligations.FullQueueHoldsEveryWord := by
  intro s rest v prog h hfull
  rw [step_of_hostIsNext h]
  exact writeCmd_of_full (v.setWidth 32) hfull

/-- Settles O20: the held write comes again, and holds again. -/
theorem heldWriteWaitsForRoom : Obligations.HeldWriteWaitsForRoom := by
  intro s rest w hag hheld hfull
  rw [step_of_heldWrite hag hheld, hheld]
  exact writeCmd_of_full w hfull

/-! ### Which command a step runs (43_control.md R163, R166, R170) -/

theorem writeCmd_of_decode_ok {w : Word} {i : Instr} (s : State) (h : decode w = .ok i) : writeCmd w s = exec i s := by
  rw [writeCmd, h]

/-- With no command in flight a held write is the one enabled step (00_scope.md R6). -/
theorem freeMove_of_heldWrite {s : State} {w : Word} (hq : s.queue = []) (hheld : s.heldWrite = some w) :
    freeMove s = some .host := by
  cases hmv : freeMove s with
  | none => simp [freeMove_eq_none_iff, enabledMoves_eq_nil_iff, hheld] at hmv
  | some mv =>
    have hmem : mv ∈ hostMoves s ++ coreMoves s := freeMove_mem hmv
    rw [(coreMoves_eq_nil_iff s).mpr hq, List.append_nil] at hmem
    rw [eq_host_of_mem_hostMoves hmem]

/-- Settles O5: each of the four steps writes the word to `CMD`. -/
theorem stepRunsTheDecodedCommand : Obligations.StepRunsTheDecodedCommand := by
  refine ⟨fun s rest w i hag hheld hdec => ?_, fun s rest v prog i h hdec => ?_, fun s w i hw hdec => ?_,
    fun s w i hag hq hheld hdec => ?_⟩
  · rw [step_of_heldWrite hag hheld, writeCmd_of_decode_ok _ hdec]
  · rw [step_of_hostIsNext h]
    exact writeCmd_of_decode_ok _ hdec
  · rw [State.withFetchWord, Nat.mod_eq_of_lt hw, step_of_heldWrite rfl rfl]
    exact writeCmd_of_decode_ok _ hdec
  · rw [step_of_freeMove hag (freeMove_of_heldWrite hq hheld), takeMove, hostStep, passTurn_heldWrite, hheld]
    exact writeCmd_of_decode_ok _ hdec

/-! ### Reads of the operand registers (43_control.md R161) -/

@[simp] theorem readOperand_lastRead (r : Option DWord) (s : State) :
    (readOperand r s).lastRead = .dword (r.getD (Config.any64 s.draws)) := by
  cases r <;> rfl

/-- Settles O8: the three offsets name the three operand registers, and a read of one keeps them. -/
theorem registerReadReturnsTheValue : Obligations.RegisterReadReturnsTheValue := fun _ _ _ =>
  ⟨fun h => ⟨_, step_of_hostIsNext h, readOperand_lastRead _ _, readOperand_accBase _ _, readOperand_mem _ _⟩,
    fun h => ⟨_, step_of_hostIsNext h, readOperand_lastRead _ _, readOperand_resBase _ _, readOperand_mem _ _⟩,
    fun h => ⟨_, step_of_hostIsNext h, readOperand_lastRead _ _, readOperand_count _ _, readOperand_mem _ _⟩⟩

/-! ### Retirement (43_control.md R167) -/

/-- A record with lanes pending takes no retirement (log 14). -/
theorem step_retire_of_pending {s : State} {rest : List Move} {pos : Nat} {c : Command}
    (hag : s.agenda = .retire pos :: rest) (hc : s.queue[pos]? = some c) (hpend : c.pend ≠ []) :
    step s = .next { s with agenda := rest } := by
  rw [step_of_agenda hag]
  simp [takeMove, retireMove, hc, hpend]

/-- Settles O42: the finished record is removed wherever it stands, and another record stays. -/
theorem retireRemovesAFinishedRecord : Obligations.RetireRemovesAFinishedRecord :=
  fun _ _ _ _ hag hc => ⟨step_retire hag hc, step_retire_of_pending hag hc⟩

end Sys2Proof.Machine
end
